-- ==== Sys2Proof/Word.lean ====
section
/-! DEFINITION. The machine word: every register of the window and every unit field that software sees is one
32-bit pattern (spec 00_scope.md R9, R10; 10_state.md R20). -/

namespace Sys2Proof

/-- A 32-bit pattern (R10: "A register holds a 32-bit pattern"). -/
abbrev Word := BitVec 32

/-- The 64-bit pattern of a MAV running sum (R7, R29). -/
abbrev Word64 := BitVec 64

end Sys2Proof
end

