-- ==== Sys2Proof/Config.lean ====
section
/-! DEFINITION. The implementation parameters of spec 00_scope.md R6: the instance counts and the buffer capacity are
arguments of the model, with this block's values beside them; the three that R6 marks OPEN are opaque constants without
a body, so that nothing can be proved about their values (R8). -/

namespace Sys2Proof.Config

/-- R6: the parameters that a model takes as arguments (93_implementation_defined.md V13). They are configuration, no
state (10_state.md R34): `State` and every meaning have them as an argument (log 5). -/
structure Params where
  /-- `P_NTMR`, the number of TMR copies. -/
  nTmr   : Nat
  /-- `P_NIIR`, the number of IIR copies. -/
  nIir   : Nat
  /-- `P_NMAV`, the number of MAV copies. -/
  nMav   : Nat
  /-- `P_NRMP`, the number of RMP copies. -/
  nRmp   : Nat
  /-- `P_MAXWIN`, the capacity of each MAV ring buffer, in samples. -/
  maxWin : Nat
deriving DecidableEq, Repr

/-- R6, the column "legal range". -/
structure Params.Legal (P : Params) : Prop where
  tmr    : 1 ≤ P.nTmr ∧ P.nTmr ≤ 255
  iir    : 1 ≤ P.nIir ∧ P.nIir ≤ 255
  mav    : 1 ≤ P.nMav ∧ P.nMav ≤ 255
  rmp    : 1 ≤ P.nRmp ∧ P.nRmp ≤ 255
  maxWin : 1 ≤ P.maxWin ∧ P.maxWin ≤ 65280

/-- R6, the column "this block's value". -/
abbrev block : Params := { nTmr := 4, nIir := 4, nMav := 4, nRmp := 4, maxWin := 64 }

/-- Number of TMR copies of this block (R6; decision D25). -/
abbrev P_NTMR : Nat := block.nTmr
/-- Number of IIR copies of this block (R6). -/
abbrev P_NIIR : Nat := block.nIir
/-- Number of MAV copies of this block (R6). -/
abbrev P_NMAV : Nat := block.nMav
/-- Number of RMP copies of this block (R6). -/
abbrev P_NRMP : Nat := block.nRmp
/-- Capacity of each MAV ring buffer of this block, in samples (R6; decision D20). -/
abbrev P_MAXWIN : Nat := block.maxWin

/-- OPEN (R6, R8): the block's binary32 evaluation of `1 − e^(−2π·freq·periodMs/1000)`, from the pattern of `freq`
and the period. Only totality and determinism are known. Log 3, safe. -/
opaque P_TCF : Word → Word → Word

/-- OPEN (R6, R8): the block's binary32 evaluation of `−ln(1−tc)·1000/(periodMs·2π)`, from the pattern of `tc` and
the period. Log 3, safe. -/
opaque P_CFT : Word → Word → Word

/-- OPEN (R6, R72): which 64-byte frame of the bus the platform gives the register window. Log 4, safe. -/
opaque windowFrame : Nat

/-- R6: the bus address of byte offset 0 of the register window, 64-byte aligned. -/
def P_BASE : Nat := 64 * windowFrame

end Sys2Proof.Config
end

