-- ==== Sys2Proof/Syntax.lean ====
section
/-! DEFINITION. The commands of FXMAC, one constructor per row of spec/opcode_table.json (30_encoding.md R84). A TMR,
IIR, MAV or RMP command carries its INST field as the number `n` (R82); an FX or SYS command carries nothing, since
its INST bits are fixed at 0. All other operands come from ARG0 to ARG3 (R85). -/

namespace Sys2Proof

/-- R84: the complete opcode map. -/
inductive Instr where
  /-- FX.F2X (40_fx.md R101). -/
  | fxF2x
  /-- FX.X2F (40_fx.md R102). -/
  | fxX2f
  /-- FX.I2X (40_fx.md R103). -/
  | fxI2x
  /-- FX.X2I (40_fx.md R104). -/
  | fxX2i
  /-- FX.MUL (40_fx.md R105). -/
  | fxMul
  /-- FX.DIV (40_fx.md R106). -/
  | fxDiv
  /-- FX.ADD (40_fx.md R107). -/
  | fxAdd
  /-- FX.SUB (40_fx.md R108). -/
  | fxSub
  /-- FX.MAC (40_fx.md R109). -/
  | fxMac
  /-- FX.TC (40_fx.md R110). -/
  | fxTc
  /-- FX.FC (40_fx.md R111). -/
  | fxFc
  /-- TMR.INIT (41_timer.md R131). -/
  | tmrInit (n : Nat)
  /-- TMR.DUE (41_timer.md R132). -/
  | tmrDue (n : Nat)
  /-- TMR.SETP (41_timer.md R133). -/
  | tmrSetp (n : Nat)
  /-- TMR.START (41_timer.md R134). -/
  | tmrStart (n : Nat)
  /-- TMR.STOP (41_timer.md R135). -/
  | tmrStop (n : Nat)
  /-- TMR.ELAP (41_timer.md R136). -/
  | tmrElap (n : Nat)
  /-- TMR.RD (41_timer.md R137). -/
  | tmrRd (n : Nat)
  /-- IIR.INIT (42_iir.md R151). -/
  | iirInit (n : Nat)
  /-- IIR.INITTC (42_iir.md R152). -/
  | iirInittc (n : Nat)
  /-- IIR.STEP (42_iir.md R153). -/
  | iirStep (n : Nat)
  /-- IIR.RD (42_iir.md R154). -/
  | iirRd (n : Nat)
  /-- MAV.INIT (43_mav.md R171). -/
  | mavInit (n : Nat)
  /-- MAV.STEP (43_mav.md R172). -/
  | mavStep (n : Nat)
  /-- MAV.RD (43_mav.md R173). -/
  | mavRd (n : Nat)
  /-- RMP.INIT (44_ramp.md R191). -/
  | rmpInit (n : Nat)
  /-- RMP.SETT (44_ramp.md R193). -/
  | rmpSett (n : Nat)
  /-- RMP.DELTA (44_ramp.md R194). -/
  | rmpDelta (n : Nat)
  /-- RMP.UPD (44_ramp.md R195). -/
  | rmpUpd (n : Nat)
  /-- RMP.CONV (44_ramp.md R196). -/
  | rmpConv (n : Nat)
  /-- RMP.RD (44_ramp.md R197). -/
  | rmpRd (n : Nat)
  /-- SYS.NOP (45_sys.md R221). -/
  | sysNop
  /-- SYS.CLRST (45_sys.md R222). -/
  | sysClrst
  /-- SYS.RESET (45_sys.md R223). -/
  | sysReset
deriving DecidableEq, Repr

/-- R81: the unit that OPC[7:4] selects. -/
inductive CommandUnit where
  | fx | tmr | iir | mav | rmp | sys
deriving DecidableEq, Repr

/-- R81, R84: the unit of a command. -/
def Instr.unit : Instr → CommandUnit
  | .fxF2x | .fxX2f | .fxI2x | .fxX2i | .fxMul | .fxDiv | .fxAdd | .fxSub | .fxMac | .fxTc | .fxFc => .fx
  | .tmrInit _ | .tmrDue _ | .tmrSetp _ | .tmrStart _ | .tmrStop _ | .tmrElap _ | .tmrRd _ => .tmr
  | .iirInit _ | .iirInittc _ | .iirStep _ | .iirRd _ => .iir
  | .mavInit _ | .mavStep _ | .mavRd _ => .mav
  | .rmpInit _ | .rmpSett _ | .rmpDelta _ | .rmpUpd _ | .rmpConv _ | .rmpRd _ => .rmp
  | .sysNop | .sysClrst | .sysReset => .sys

/-- R82: the INST field; 0 where the field is reserved (FX and SYS). -/
def Instr.inst : Instr → Nat
  | .tmrInit n | .tmrDue n | .tmrSetp n | .tmrStart n | .tmrStop n | .tmrElap n
  | .tmrRd n | .iirInit n | .iirInittc n | .iirStep n | .iirRd n
  | .mavInit n | .mavStep n | .mavRd n | .rmpInit n | .rmpSett n | .rmpDelta n
  | .rmpUpd n | .rmpConv n | .rmpRd n => n
  | .fxF2x | .fxX2f | .fxI2x | .fxX2i | .fxMul | .fxDiv | .fxAdd | .fxSub | .fxMac | .fxTc | .fxFc
  | .sysNop | .sysClrst | .sysReset => 0

/-- R83: COUNT(unit), the number of copies of a unit that INST may select; none for FX and SYS. The parameters are this
block's unless others are given. -/
def CommandUnit.count (u : CommandUnit) (P : Config.Params := Config.block) : Option Nat :=
  match u with
  | .tmr => some P.nTmr
  | .iir => some P.nIir
  | .mav => some P.nMav
  | .rmp => some P.nRmp
  | .fx | .sys => none

end Sys2Proof
end

