-- ==== Sys2Proof/WellFormed.lean ====
section
/-! DEFINITION. When a term of `Instr` is a command that a word can say: its INST value fits the field's 8 bits
(30_encoding.md R80, R82). An INST value at or above the unit's count is well formed: such a word exists, decodes, and
raises E_INST when it is performed (R83). -/

namespace Sys2Proof

/-- R80, R82: INST is the unsigned value of an 8-bit field. -/
abbrev Instr.WellFormed (i : Instr) : Prop := i.inst < 256

/-- The check, as a Bool. -/
def Instr.wf (i : Instr) : Bool := decide i.WellFormed

end Sys2Proof
end

