-- ==== Sys2Proof/Decode.lean ====
section
/-! DEFINITION. Decoding a command word, total and rejecting by name, and the encoder written from the same tables
(spec 30_encoding.md R80 to R84, R87). The three ways a word can be illegal are one check with one code, E_ILLEGAL
(60_exceptions.md R232); their names only say which words they are. -/

namespace Sys2Proof

/-- R87: why a word is no command. -/
inductive DecodeError where
  /-- RSV, bits 31:16, is not 0. -/
  | reservedNonzero
  /-- OPC is not in the opcode map of R84. -/
  | opcodeUnlisted
  /-- INST is not 0 on an FX or SYS opcode. -/
  | instNonzero
deriving DecidableEq, Repr

/-- R80: OPC = w[7:0]. -/
def opcField (w : Word) : Nat := (w.extractLsb' 0 8).toNat
/-- R80, R82: INST = zext(w[15:8]). -/
def instField (w : Word) : Nat := (w.extractLsb' 8 8).toNat
/-- R80: RSV = w[31:16]. -/
def rsvField (w : Word) : Nat := (w.extractLsb' 16 16).toNat

/-- R82, R83: an FX or SYS command, whose INST field must be 0. -/
def plainCommand (i : Instr) (inst : Nat) : Except DecodeError Instr :=
  if inst = 0 then .ok i else .error .instNonzero

/-- R84: the opcode map, for a word whose RSV field is 0. -/
def decodeFields (opc inst : Nat) : Except DecodeError Instr :=
  match opc with
  | 0x01 => plainCommand .fxF2x inst
  | 0x02 => plainCommand .fxX2f inst
  | 0x03 => plainCommand .fxI2x inst
  | 0x04 => plainCommand .fxX2i inst
  | 0x05 => plainCommand .fxMul inst
  | 0x06 => plainCommand .fxDiv inst
  | 0x07 => plainCommand .fxAdd inst
  | 0x08 => plainCommand .fxSub inst
  | 0x09 => plainCommand .fxMac inst
  | 0x0A => plainCommand .fxTc inst
  | 0x0B => plainCommand .fxFc inst
  | 0x10 => .ok (.tmrInit inst)
  | 0x11 => .ok (.tmrDue inst)
  | 0x12 => .ok (.tmrSetp inst)
  | 0x13 => .ok (.tmrStart inst)
  | 0x14 => .ok (.tmrStop inst)
  | 0x15 => .ok (.tmrElap inst)
  | 0x1F => .ok (.tmrRd inst)
  | 0x20 => .ok (.iirInit inst)
  | 0x21 => .ok (.iirInittc inst)
  | 0x22 => .ok (.iirStep inst)
  | 0x2F => .ok (.iirRd inst)
  | 0x30 => .ok (.mavInit inst)
  | 0x31 => .ok (.mavStep inst)
  | 0x3F => .ok (.mavRd inst)
  | 0x40 => .ok (.rmpInit inst)
  | 0x41 => .ok (.rmpSett inst)
  | 0x42 => .ok (.rmpDelta inst)
  | 0x43 => .ok (.rmpUpd inst)
  | 0x44 => .ok (.rmpConv inst)
  | 0x4F => .ok (.rmpRd inst)
  | 0xF0 => plainCommand .sysNop inst
  | 0xF1 => plainCommand .sysClrst inst
  | 0xF2 => plainCommand .sysReset inst
  | _ => .error .opcodeUnlisted

/-- R83: the decoder of a word written to CMD. -/
def decode (w : Word) : Except DecodeError Instr :=
  if rsvField w = 0 then decodeFields (opcField w) (instField w) else .error .reservedNonzero

/-- R84: OPC of each command. -/
def Instr.opc : Instr → BitVec 8
  | .fxF2x => 0x01
  | .fxX2f => 0x02
  | .fxI2x => 0x03
  | .fxX2i => 0x04
  | .fxMul => 0x05
  | .fxDiv => 0x06
  | .fxAdd => 0x07
  | .fxSub => 0x08
  | .fxMac => 0x09
  | .fxTc => 0x0A
  | .fxFc => 0x0B
  | .tmrInit _ => 0x10
  | .tmrDue _ => 0x11
  | .tmrSetp _ => 0x12
  | .tmrStart _ => 0x13
  | .tmrStop _ => 0x14
  | .tmrElap _ => 0x15
  | .tmrRd _ => 0x1F
  | .iirInit _ => 0x20
  | .iirInittc _ => 0x21
  | .iirStep _ => 0x22
  | .iirRd _ => 0x2F
  | .mavInit _ => 0x30
  | .mavStep _ => 0x31
  | .mavRd _ => 0x3F
  | .rmpInit _ => 0x40
  | .rmpSett _ => 0x41
  | .rmpDelta _ => 0x42
  | .rmpUpd _ => 0x43
  | .rmpConv _ => 0x44
  | .rmpRd _ => 0x4F
  | .sysNop => 0xF0
  | .sysClrst => 0xF1
  | .sysReset => 0xF2

/-- R80: the command word `{RSV = 0, INST, OPC}`. -/
def encode (i : Instr) : Word := 0#16 ++ BitVec.ofNat 8 i.inst ++ i.opc

/-- The command that the decoder reads from the bits `w` of a table row of `nbits` bits (every bit above them 0). A
command is exactly one 32-bit word (R88), written to CMD as it is. -/
def decodeTableWord (nbits w : Nat) : Option Instr :=
  match decode (BitVec.ofNat 32 (w % 2 ^ nbits)) with
  | .ok i => some i
  | .error _ => none

end Sys2Proof
end

