-- ==== Sys2Proof/Machine/State.lean ====
section
/-! DEFINITION. The state of the block (spec 10_state.md R20 to R33), the model's own fields that stand for the host
(log 1), the reasons a step can stop, and the state after reset (70_reset_and_hazards.md R261). -/

namespace Sys2Proof.Machine

open Sys2Proof.Config

/-- STATUS.CODE: the outcome of the most recent command (60_exceptions.md R230). Codes 7 to 15 are never written, so
they have no constructor (10_state.md R23; log 8). -/
inductive Code where
  /-- 0: the command completed. -/
  | ok
  /-- 1: the command word is not in the opcode map. -/
  | eIllegal
  /-- 2: INST is at or above the unit's count. -/
  | eInst
  /-- 3: the selected copy is not configured. -/
  | eUnconf
  /-- 4: FX.DIV by 0. -/
  | eDiv0
  /-- 5: a float that is NaN, infinite or outside the fix range. -/
  | eFrange
  /-- 6: an operand outside the command's legal set. -/
  | eArg
deriving DecidableEq, Repr

/-- The IIR modes (42_iir.md R150). -/
inductive FilterMode where
  | lowpass | highpass
deriving DecidableEq, Repr

/-- One TMR copy: cyclic timer and stopwatch (10_state.md R27). -/
structure Tmr where
  valid      : Bool
  period     : Word
  lastBucket : Word
  startRef   : Word
  frozen     : Word
  running    : Bool
deriving DecidableEq, Repr

/-- One IIR copy: first-order filter (10_state.md R28). -/
structure Iir where
  valid : Bool
  mode  : FilterMode
  tc    : Word
  lp    : Word
  out   : Word
deriving DecidableEq, Repr

/-- A MAV copy's private sample memory (10_state.md R30): the slots that hold another value than the reset value 0, as
(slot, word) pairs with rising slot numbers (the form `SampleMemory.wf`, log 6). -/
abbrev SampleMemory := List (Nat × Word)

/-- One MAV copy: moving average (10_state.md R29). -/
structure Mav where
  valid  : Bool
  win    : Word
  cursor : Word
  sum    : Word64
  out    : Word
  buf    : SampleMemory
deriving DecidableEq, Repr

/-- One RMP copy: linear ramp (10_state.md R32). -/
structure Rmp where
  valid   : Bool
  present : Word
  target  : Word
  inc     : Word
  dec     : Word
  tick    : Word
deriving DecidableEq, Repr

/-- What the outside world can do to the block (60_exceptions.md R245). `off` is a byte offset from P_BASE and `n` the
number of bytes of the access (00_scope.md R13). Only a 4-byte access carries data (R61), so `v` is one word (log 11). -/
inductive HostOp where
  /-- MemWrite(off, n, v). -/
  | write (off n : Nat) (v : Word)
  /-- MemRead(off, n). -/
  | read (off n : Nat)
  /-- Assertion of the hardware reset input, power-up included (70_reset_and_hazards.md R260). -/
  | hardwareReset
deriving DecidableEq, Repr

/-- The whole state of a block with the parameters P; `State` alone is this block's (00_scope.md R6; log 5). -/
structure State (P : Params := block) where
  /-- ARG0 to ARG3 (10_state.md R21). -/
  arg0 : Word
  arg1 : Word
  arg2 : Word
  arg3 : Word
  /-- RES0 and RES1 (R22). -/
  res0 : Word
  res1 : Word
  /-- STATUS[3:0] (R23). -/
  code : Code
  /-- STATUS[14:9]: bit (c − 1) of the field is set when a command raises code c (R23). -/
  sticky : BitVec 6
  /-- The copies of each unit (R27, R28, R29, R32). -/
  tmr : Vector Tmr P.nTmr
  iir : Vector Iir P.nIir
  mav : Vector Mav P.nMav
  rmp : Vector Rmp P.nRmp
  /-- MODEL's own: what the host and the platform have yet to do to the block, oldest first (log 1). -/
  pending : List HostOp
  /-- MODEL's own: the values returned by the host's reads, oldest first (60_exceptions.md R246; log 1). -/
  readLog : List Word
deriving DecidableEq, Repr

/-- Why a step stops with a fault. -/
inductive Fault where
  /-- Raised by a host access that breaks 20_memory.md R61 (width, alignment or offset): "A model treats such an access
  as a host-step fault". The block itself goes on unchanged (`State.afterBusError`). Safe (log 2). -/
  | busError (off n : Nat)
deriving DecidableEq, Repr

/-- Why a step has no meaning. -/
inductive Refusal where
  /-- Raised by an arm of `exec` whose command has no meaning yet; no arm does. Safe. -/
  | notModelled (mnemonic : String)
deriving DecidableEq, Repr

/-- R27: an unconfigured TMR copy. -/
def Tmr.atReset : Tmr :=
  { valid := false, period := 0, lastBucket := 0, startRef := 0, frozen := 0, running := false }

/-- R28: an unconfigured IIR copy; mode 0 is LOWPASS. -/
def Iir.atReset : Iir := { valid := false, mode := .lowpass, tc := 0, lp := 0, out := 0 }

/-- R29, R30: an unconfigured MAV copy, every buffer slot 0. -/
def Mav.atReset : Mav := { valid := false, win := 0, cursor := 0, sum := 0, out := 0, buf := [] }

/-- R32: an unconfigured RMP copy. -/
def Rmp.atReset : Rmp := { valid := false, present := 0, target := 0, inc := 0, dec := 0, tick := 0 }

/-- 70_reset_and_hazards.md R261: "No field is left unspecified at reset". The model's own fields are empty (log 1). -/
def State.resetWith (P : Params) : State P :=
  { arg0 := 0, arg1 := 0, arg2 := 0, arg3 := 0, res0 := 0, res1 := 0, code := .ok, sticky := 0,
    tmr := Vector.replicate P.nTmr Tmr.atReset, iir := Vector.replicate P.nIir Iir.atReset,
    mav := Vector.replicate P.nMav Mav.atReset, rmp := Vector.replicate P.nRmp Rmp.atReset,
    pending := [], readLog := [] }

/-- R261 for this block. -/
def State.reset : State := State.resetWith block

end Sys2Proof.Machine
end

