-- ==== Sys2Proof/Machine/Operands.lean ====
section
/-! DEFINITION. How the bits of a register are read as a value and how a value is written back as bits: the primitives
of spec 00_scope.md R10 to R12 and the operand types of 30_encoding.md R85 (`fix`, `s32`, `u32`, `f32`, `sel`). -/

namespace Sys2Proof.Machine

/-- R10: the two's-complement value of a pattern; also the raw value of a fix (R11). -/
def s32 (w : Word) : Int := w.toInt
/-- R10: the unsigned value of a pattern; also a selector (R85). -/
def u32 (w : Word) : Nat := w.toNat
/-- R10: the pattern of an integer, taken modulo 2^32 in two's complement. -/
def wrap32 (v : Int) : Word := BitVec.ofInt 32 v
/-- R10: `wrapu32`, the residue modulo 2^32. -/
def wrapu32 (v : Int) : Nat := (v % 2 ^ 32).toNat
/-- R10: writing an unsigned integer to a register. -/
def ofU32 (v : Nat) : Word := BitVec.ofNat 32 v
/-- R7: the value of a 64-bit accumulator. -/
def s64 (w : Word64) : Int := w.toInt
/-- R7: the 64-bit pattern of an integer. -/
def wrap64 (v : Int) : Word64 := BitVec.ofInt 64 v
/-- R10: arithmetic shift right, `floor(v / 2^n)`. -/
def asr (v : Int) (n : Nat) : Int := v / (2 ^ n : Nat)
/-- R10: division rounded toward zero. -/
def tdiv (a b : Int) : Int := a.tdiv b
/-- R10: `floor(a / b)` for naturals. -/
def udiv (a b : Nat) : Nat := a / b

/-- A 1-bit field read as a word. -/
def bitWord (b : Bool) : Word := if b then 1 else 0

/-- R150: LOWPASS is encoded 0 and HIGHPASS 1. -/
def FilterMode.toWord : FilterMode → Word
  | .lowpass => 0
  | .highpass => 1

/-- R150, R151: the mode that an operand encodes; none above 1. -/
def filterMode (w : Word) : Option FilterMode :=
  match u32 w with
  | 0 => some .lowpass
  | 1 => some .highpass
  | _ => none

/-- R12: bit 31, the sign of a binary32 pattern. -/
def f32sign (w : Word) : Bool := w.getLsbD 31
/-- R12: bits 30:23, the biased exponent. -/
def f32exp (w : Word) : Nat := (w.extractLsb' 23 8).toNat
/-- R12: bits 22:0, the fraction. -/
def f32frac (w : Word) : Nat := (w.extractLsb' 0 23).toNat

/-- R12: the classes of a pattern. -/
inductive F32Class where
  | zero | subnormal | normal | infinity | nan
deriving DecidableEq, Repr

/-- R12: `f32class`. -/
def f32class (w : Word) : F32Class :=
  if f32exp w = 255 then (if f32frac w = 0 then .infinity else .nan)
  else if f32exp w = 0 then (if f32frac w = 0 then .zero else .subnormal)
  else .normal

/-- R12: a finite pattern has a value. -/
def f32finite (w : Word) : Bool :=
  match f32class w with
  | .infinity | .nan => false
  | .zero | .subnormal | .normal => true

/-- R12: the signed significand of a finite pattern, an integer: the value is `f32mant w × 2^(f32pow w)`. -/
def f32mant (w : Word) : Int :=
  let m : Nat := if f32exp w = 0 then f32frac w else 2 ^ 23 + f32frac w
  if f32sign w then -(m : Int) else m

/-- R12: the power of two that scales the significand (bias 127, 23 fraction bits; a subnormal scales as exponent 1). -/
def f32pow (w : Word) : Int := (if f32exp w = 0 then 1 else (f32exp w : Int)) - 150

/-- R12: `f32val`, the exact rational value of a finite pattern. -/
def f32val (w : Word) : ℚ := (f32mant w : ℚ) * (2 : ℚ) ^ f32pow w

/-- R12: `trunc(m × 2^p)`, toward zero, computed on integers. -/
def truncScaled (m p : Int) : Int :=
  if 0 ≤ p then m * (2 ^ p.toNat : Nat) else m.tdiv (2 ^ (-p).toNat : Nat)

/-- R12: `m / 2^d` rounded to the nearest integer, a tie going to the even one. -/
def rneShift (m d : Nat) : Nat :=
  let q := m / 2 ^ d
  let r := m % 2 ^ d
  if 2 * r > 2 ^ d ∨ (2 * r = 2 ^ d ∧ q % 2 = 1) then q + 1 else q

/-- R12: `rne32(± m / 2^16)` for a magnitude of at most 32 bits. With the leading bit of `m` at place L, the exponent
field is L − 16 + 127 and 24 significant bits are kept; a carry out of the rounding runs into the exponent field. -/
def rneFix (neg : Bool) (m : Nat) : Word :=
  if m = 0 then 0
  else
    let L := m.log2
    let sig := if L ≤ 23 then m * 2 ^ (23 - L) else rneShift m (L - 23)
    ofU32 ((if neg then 2 ^ 31 else 0) + (L + 111) * 2 ^ 23 + (sig - 2 ^ 23))

end Sys2Proof.Machine
end

