-- ==== Sys2Proof/Machine/Fixed.lean ====
section
/-! DEFINITION. The named functions of the FX unit (spec 40_fx.md R101 to R111), which the other units' rules use too,
"so the arithmetic is defined once". `none` is the rules' FAULT. -/

namespace Sys2Proof.Machine

/-- R101: the least and the greatest raw value of a fix. -/
def inFixRange (r : Int) : Bool := decide (-2 ^ 31 ≤ r) && decide (r ≤ 2 ^ 31 - 1)

/-- R101 `f2x`: `trunc(f32val(w) × 2^16)`, or FAULT for a NaN, an infinity or a result outside the fix range. -/
def f2x (w : Word) : Option Word :=
  if f32finite w then
    let r := truncScaled (f32mant w) (f32pow w + 16)
    if inFixRange r then some (wrap32 r) else none
  else none

/-- R102 `x2f`: `rne32(s32(a) / 2^16)`. -/
def x2f (a : Word) : Word := rneFix (decide (s32 a < 0)) (s32 a).natAbs

/-- R103 `i2x`. -/
def i2x (i : Word) : Word := wrap32 (s32 i * 2 ^ 16)

/-- R104 `x2i`: the bias is added without 32-bit overflow. -/
def x2i (a : Word) : Word := wrap32 (asr (s32 a + 2 ^ 15) 16)

/-- R105 `fxmul`. -/
def fxmul (a b : Word) : Word := wrap32 (asr (s32 a * s32 b) 16)

/-- R106 `fxdiv`; FAULT for a zero divisor. -/
def fxdiv (a b : Word) : Option Word :=
  if s32 b = 0 then none else some (wrap32 (tdiv (s32 a * 2 ^ 16) (s32 b)))

/-- R107 `fxadd`. -/
def fxadd (a b : Word) : Word := wrap32 (s32 a + s32 b)

/-- R108 `fxsub`. -/
def fxsub (a b : Word) : Word := wrap32 (s32 a - s32 b)

/-- R109: `fxadd(c, fxmul(a, b))`. -/
def fxmac (a b c : Word) : Word := fxadd c (fxmul a b)

/-- R110 `tcfix`: the time constant of a cutoff, by the open P_TCF. -/
def tcfix (f p : Word) : Option Word := f2x (Config.P_TCF f p)

/-- R111: the cutoff of a time constant, by the open P_CFT. -/
def cutoff (tc p : Word) : Word := Config.P_CFT (x2f tc) p

end Sys2Proof.Machine
end

