-- ==== Sys2Proof/Machine/Flags.lean ====
section
/-! DEFINITION. STATUS, the block's only flags (00_scope.md R16; 10_state.md R23; 60_exceptions.md R230, R231): the
number of each code, its STICKY bit, and the word that a read of STATUS returns. -/

namespace Sys2Proof.Machine

open Sys2Proof.Config

variable {P : Params}

/-- R230: the number of each code. -/
def Code.toNat : Code → Nat
  | .ok => 0
  | .eIllegal => 1
  | .eInst => 2
  | .eUnconf => 3
  | .eDiv0 => 4
  | .eFrange => 5
  | .eArg => 6

/-- R231: `1 << (c − 1)` within the STICKY field; code 0 has no sticky bit (R23). -/
def Code.stickyBit (c : Code) : BitVec 6 :=
  if c = .ok then 0 else (1 : BitVec 6) <<< (c.toNat - 1)

/-- R23: STATUS as the host reads it. Bits 31:15, 8 and 7:4 read as 0. -/
def State.statusWord (s : State P) : Word :=
  0#17 ++ s.sticky ++ 0#5 ++ BitVec.ofNat 4 s.code.toNat

end Sys2Proof.Machine
end

