-- ==== Sys2Proof/Machine/Ops.lean ====
section
/-! DEFINITION. The shared operations over the state: how a command completes and how it raises a fault code
(60_exceptions.md R231), how INST selects a copy and which checks come first (30_encoding.md R83), the sample memory
(10_state.md R30), and reset (70_reset_and_hazards.md R261). -/

namespace Sys2Proof.Machine

open Sys2Proof.Config

variable {P : Params}

/-- R231, the block's whole exception entry: CODE takes the code, its STICKY bit is set, and nothing else changes. The
block takes no trap, saves nothing and has no return (R234). -/
def State.raise (c : Code) (s : State P) : State P :=
  { s with code := c, sticky := s.sticky ||| c.stickyBit }

/-- R231, 10_state.md R22, R23: a command that completes writes RES0 and RES1 and CODE 0; STICKY stays. -/
def State.complete (r0 r1 : Word) (s : State P) : State P :=
  { s with res0 := r0, res1 := r1, code := .ok }

/-- 00_scope.md R14: how a command's pseudocode ends: it raises a code before its first write, or it is done with a new
value for what it may change and its two results. -/
inductive Verdict (α : Type) where
  | raise (c : Code)
  | done (new : α) (r0 r1 : Word)
deriving DecidableEq, Repr

/-- R14, R15, R231: the effect of a command on the block, `put` saying where the new value goes. -/
def State.commit {α : Type} (s : State P) (put : α → State P) : Verdict α → State P
  | .raise c => s.raise c
  | .done new r0 r1 => (put new).complete r0 r1

/-- R83 for a TMR, IIR, MAV or RMP command: E_INST, then E_UNCONF, then the command on the selected copy alone
(10_state.md R36). `ready` is the copy's `valid`, or `anyCopy` for a command in NEEDS_NO_CONFIG. -/
def selectCopy {α : Type} {N : Nat} (copies : Vector α N) (ready : α → Bool) (n : Nat) (body : α → Verdict α) :
    Verdict (Vector α N) :=
  if h : n < N then
    if ready copies[n] then
      match body copies[n] with
      | .raise c => .raise c
      | .done new r0 r1 => .done (copies.set n new h) r0 r1
    else .raise .eUnconf
  else .raise .eInst

/-- R83: the check of a command in NEEDS_NO_CONFIG. -/
def anyCopy {α : Type} (_ : α) : Bool := true

/-- A command of the TMR unit on copy `n`. -/
def State.tmrCommand (s : State P) (ready : Tmr → Bool) (n : Nat) (body : Tmr → Verdict Tmr) : State P :=
  s.commit (fun v => { s with tmr := v }) (selectCopy s.tmr ready n body)

/-- A command of the IIR unit on copy `n`. -/
def State.iirCommand (s : State P) (ready : Iir → Bool) (n : Nat) (body : Iir → Verdict Iir) : State P :=
  s.commit (fun v => { s with iir := v }) (selectCopy s.iir ready n body)

/-- A command of the MAV unit on copy `n`. -/
def State.mavCommand (s : State P) (ready : Mav → Bool) (n : Nat) (body : Mav → Verdict Mav) : State P :=
  s.commit (fun v => { s with mav := v }) (selectCopy s.mav ready n body)

/-- A command of the RMP unit on copy `n`. -/
def State.rmpCommand (s : State P) (ready : Rmp → Bool) (n : Nat) (body : Rmp → Verdict Rmp) : State P :=
  s.commit (fun v => { s with rmp := v }) (selectCopy s.rmp ready n body)

/-- A command of the FX unit: no state but RES and STATUS (40_fx.md R100). -/
def State.fxCommand (s : State P) (r : Option Word) (onFault : Code) : State P :=
  match r with
  | none => s.raise onFault
  | some v => s.complete v 0

/-- What a slot that is not listed reads as: the reset value of every slot (R261; log 6). -/
def unlistedSlot : Word := 0

/-- The canonical form: slots strictly rising, each below the capacity P_MAXWIN, none listed at its unlisted
value. -/
abbrev SampleMemory.wf (capacity : Nat) (m : SampleMemory) : Prop :=
  List.Pairwise (fun a b => a.1 < b.1) m ∧ ∀ c ∈ m, c.1 < capacity ∧ c.2 ≠ unlistedSlot

/-- 10_state.md R30 `BufRead`. -/
def bufRead : SampleMemory → Nat → Word
  | [], _ => unlistedSlot
  | (j, v) :: m, k => if j = k then v else bufRead m k

/-- Puts a slot into the list, in order, whatever its value. -/
def bufInsert (k : Nat) (v : Word) : SampleMemory → SampleMemory
  | [] => [(k, v)]
  | (j, u) :: m => if j < k then (j, u) :: bufInsert k v m else if j = k then (k, v) :: m else (k, v) :: (j, u) :: m

/-- Takes a slot out of the list, so that it reads as unlisted. -/
def bufErase (k : Nat) : SampleMemory → SampleMemory
  | [] => []
  | (j, u) :: m => if j = k then m else (j, u) :: bufErase k m

/-- 10_state.md R30 `BufWrite`. A slot that does not exist keeps nothing; no command addresses one (log 7). -/
def bufWrite (capacity : Nat) (m : SampleMemory) (k : Nat) (v : Word) : SampleMemory :=
  if k < capacity then (if v = unlistedSlot then bufErase k m else bufInsert k v m) else m

/-- 43_mav.md R171: `for k in 0 .. N−1: BufWrite(n, k, v)`. -/
def bufFill (capacity : Nat) (m : SampleMemory) (v : Word) : Nat → SampleMemory
  | 0 => m
  | k + 1 => bufWrite capacity (bufFill capacity m v k) k v

/-- 70_reset_and_hazards.md R261: the reset of the whole block. What the host has yet to do and what it has read are not
the block's and stay (R260; log 10). -/
def State.resetBlock (s : State P) : State P :=
  { State.resetWith P with pending := s.pending, readLog := s.readLog }

end Sys2Proof.Machine
end

