-- ==== Sys2Proof/Machine/Average.lean ====
section
/-! DEFINITION. The MAV commands (spec 43_mav.md R170 to R173). -/

namespace Sys2Proof.Machine

open Sys2Proof.Config

variable {P : Params}

/-- R171: slots from N up stay. -/
def mavInit (capacity : Nat) (win fill : Word) (a : Mav) : Verdict Mav :=
  if u32 win = 0 ∨ u32 win > capacity then .raise .eArg
  else .done { valid := true, win := win, cursor := 0, sum := wrap64 ((u32 win : Int) * s32 fill), out := fill,
               buf := bufFill capacity a.buf fill (u32 win) } 0 0

/-- R172: the sum without the evicted sample and with the new one. -/
def mavSum (a : Mav) (x : Word) : Int := s64 a.sum - s32 (bufRead a.buf (u32 a.cursor)) + s32 x

/-- R172: evict, insert, advance, and divide toward zero. -/
def mavStep (capacity : Nat) (x : Word) (a : Mav) : Verdict Mav :=
  let out := wrap32 (tdiv (mavSum a x) (u32 a.win))
  .done { a with sum := wrap64 (mavSum a x), cursor := ofU32 ((u32 a.cursor + 1) % u32 a.win), out := out,
                 buf := bufWrite capacity a.buf (u32 a.cursor) x } out 0

/-- R173: the two result words a selector names; 0x100 + k is buffer slot k. -/
def mavField (capacity : Nat) (sel : Nat) (a : Mav) : Option (Word × Word) :=
  match sel with
  | 0 => some (bitWord a.valid, 0)
  | 1 => some (a.win, 0)
  | 2 => some (a.cursor, 0)
  | 3 => some (a.sum.extractLsb' 0 32, a.sum.extractLsb' 32 32)
  | 4 => some (a.out, 0)
  | sel => if 0x100 ≤ sel ∧ sel < 0x100 + capacity then some (bufRead a.buf (sel - 0x100), 0) else none

/-- R173. -/
def mavRd (capacity : Nat) (sel : Word) (a : Mav) : Verdict Mav :=
  match mavField capacity (u32 sel) a with
  | some (lo, hi) => .done a lo hi
  | none => .raise .eArg

/-- R171. -/
def execMavInit (n : Nat) (s : State P) : Host.Outcome (State P) Fault Refusal :=
  .next (s.mavCommand anyCopy n (mavInit P.maxWin s.arg0 s.arg1))
/-- R172. -/
def execMavStep (n : Nat) (s : State P) : Host.Outcome (State P) Fault Refusal :=
  .next (s.mavCommand Mav.valid n (mavStep P.maxWin s.arg0))
/-- R173. -/
def execMavRd (n : Nat) (s : State P) : Host.Outcome (State P) Fault Refusal :=
  .next (s.mavCommand anyCopy n (mavRd P.maxWin s.arg0))

end Sys2Proof.Machine
end

