-- ==== Sys2Proof/Machine/Filter.lean ====
section
/-! DEFINITION. The IIR commands (spec 42_iir.md R150 to R154). -/

namespace Sys2Proof.Machine

open Sys2Proof.Config

variable {P : Params}

/-- R151, R152: a constructed filter; `out` starts at the initial state for LOWPASS and at 0 for HIGHPASS. -/
def constructedIir (mode : FilterMode) (tc init : Word) : Iir :=
  { valid := true, mode := mode, tc := tc, lp := init, out := if mode = .lowpass then init else 0 }

/-- R151: the mode is checked first, then the conversion of the time constant. -/
def iirInit (mode freq period init : Word) (_ : Iir) : Verdict Iir :=
  match filterMode mode with
  | none => .raise .eArg
  | some m =>
    match tcfix freq period with
    | none => .raise .eFrange
    | some tc => .done (constructedIir m tc init) 0 0

/-- R152: any time constant is accepted. -/
def iirInittc (mode tc init : Word) (_ : Iir) : Verdict Iir :=
  match filterMode mode with
  | none => .raise .eArg
  | some m => .done (constructedIir m tc init) 0 0

/-- R153, step 1: the updated low-pass estimate. -/
def lowpassNext (x lp tc : Word) : Word := fxadd lp (fxmul (fxsub x lp) tc)

/-- R153: HIGHPASS uses the updated estimate. -/
def iirStep (x : Word) (f : Iir) : Verdict Iir :=
  let lp := lowpassNext x f.lp f.tc
  let out := match f.mode with
    | .lowpass => lp
    | .highpass => fxsub x lp
  .done { f with lp := lp, out := out } out 0

/-- R154: the attribute a selector names; none above 4. -/
def iirField (sel : Nat) (f : Iir) : Option Word :=
  match sel with
  | 0 => some (bitWord f.valid)
  | 1 => some f.mode.toWord
  | 2 => some f.tc
  | 3 => some f.lp
  | 4 => some f.out
  | _ => none

/-- R154. -/
def iirRd (sel : Word) (f : Iir) : Verdict Iir :=
  match iirField (u32 sel) f with
  | some v => .done f v 0
  | none => .raise .eArg

/-- R151. -/
def execIirInit (n : Nat) (s : State P) : Host.Outcome (State P) Fault Refusal :=
  .next (s.iirCommand anyCopy n (iirInit s.arg0 s.arg1 s.arg2 s.arg3))
/-- R152; ARG2 is not read. -/
def execIirInittc (n : Nat) (s : State P) : Host.Outcome (State P) Fault Refusal :=
  .next (s.iirCommand anyCopy n (iirInittc s.arg0 s.arg1 s.arg3))
/-- R153. -/
def execIirStep (n : Nat) (s : State P) : Host.Outcome (State P) Fault Refusal :=
  .next (s.iirCommand Iir.valid n (iirStep s.arg0))
/-- R154. -/
def execIirRd (n : Nat) (s : State P) : Host.Outcome (State P) Fault Refusal :=
  .next (s.iirCommand anyCopy n (iirRd s.arg0))

end Sys2Proof.Machine
end

