-- ==== Sys2Proof/Machine/Fx.lean ====
section
/-! DEFINITION. The FX commands (spec 40_fx.md R100 to R111): each applies one function of Machine/Fixed.lean to the
ARG registers and writes RES0, RES1 and STATUS only. -/

namespace Sys2Proof.Machine

open Sys2Proof.Config

variable {P : Params}

/-- R101. -/
def execFxF2x (s : State P) : Host.Outcome (State P) Fault Refusal := .next (s.fxCommand (f2x s.arg0) .eFrange)
/-- R102. -/
def execFxX2f (s : State P) : Host.Outcome (State P) Fault Refusal := .next (s.complete (x2f s.arg0) 0)
/-- R103. -/
def execFxI2x (s : State P) : Host.Outcome (State P) Fault Refusal := .next (s.complete (i2x s.arg0) 0)
/-- R104. -/
def execFxX2i (s : State P) : Host.Outcome (State P) Fault Refusal := .next (s.complete (x2i s.arg0) 0)
/-- R105. -/
def execFxMul (s : State P) : Host.Outcome (State P) Fault Refusal := .next (s.complete (fxmul s.arg0 s.arg1) 0)
/-- R106. -/
def execFxDiv (s : State P) : Host.Outcome (State P) Fault Refusal := .next (s.fxCommand (fxdiv s.arg0 s.arg1) .eDiv0)
/-- R107. -/
def execFxAdd (s : State P) : Host.Outcome (State P) Fault Refusal := .next (s.complete (fxadd s.arg0 s.arg1) 0)
/-- R108. -/
def execFxSub (s : State P) : Host.Outcome (State P) Fault Refusal := .next (s.complete (fxsub s.arg0 s.arg1) 0)
/-- R109. -/
def execFxMac (s : State P) : Host.Outcome (State P) Fault Refusal := .next (s.complete (fxmac s.arg0 s.arg1 s.arg2) 0)
/-- R110. -/
def execFxTc (s : State P) : Host.Outcome (State P) Fault Refusal := .next (s.fxCommand (tcfix s.arg0 s.arg1) .eFrange)
/-- R111. -/
def execFxFc (s : State P) : Host.Outcome (State P) Fault Refusal := .next (s.complete (cutoff s.arg0 s.arg1) 0)

end Sys2Proof.Machine
end

