-- ==== Sys2Proof/Machine/Ramp.lean ====
section
/-! DEFINITION. The RMP commands (spec 44_ramp.md R190 to R197). Comparisons of fix values are on raw values. -/

namespace Sys2Proof.Machine

open Sys2Proof.Config

variable {P : Params}

/-- R191: the tick period as a fix, rounded down. -/
def tickRaw (periodMs : Nat) : Nat := udiv (periodMs * 2 ^ 16) 1000

/-- R191: checks in order: range of the increase rate, of the decrease rate, signs, tick, step. -/
def rmpInit (period incRate decRate : Word) (_ : Rmp) : Verdict Rmp :=
  match f2x incRate with
  | none => .raise .eFrange
  | some i =>
    match f2x decRate with
    | none => .raise .eFrange
    | some d =>
      let t := tickRaw (u32 period)
      if s32 i < 0 ∨ s32 d < 0 then .raise .eArg
      else if t > 2 ^ 31 - 1 then .raise .eArg
      else if asr (max (s32 i) (s32 d) * t) 16 > 2 ^ 31 - 1 then .raise .eArg
      else .done { valid := true, present := 0, target := 0, inc := i, dec := d, tick := ofU32 t } 0 0

/-- R192 `rdelta`: the rate in use, by the source's exact case list. -/
def rdelta (r : Rmp) : Word :=
  if s32 r.present = s32 r.target then 0
  else if s32 r.target = 0 then r.dec
  else if s32 r.target > 0 then (if s32 r.present < s32 r.target then r.inc else r.dec)
  else (if s32 r.present > s32 r.target then r.inc else r.dec)

/-- R193: `present` stays. -/
def rmpSett (value : Word) (r : Rmp) : Verdict Rmp := .done { r with target := value } 0 0

/-- R194. -/
def rmpDelta (r : Rmp) : Verdict Rmp := .done r (rdelta r) 0

/-- R195: the per-tick increment of a ramp. -/
def rampStep (r : Rmp) : Int := s32 (fxmul (rdelta r) r.tick)

/-- R195: the exact sum or difference, then the clamp onto the target. -/
def rampNext (r : Rmp) : Int :=
  if s32 r.present < s32 r.target then min (s32 r.present + rampStep r) (s32 r.target)
  else if s32 r.present > s32 r.target then max (s32 r.present - rampStep r) (s32 r.target)
  else s32 r.present

/-- R195. -/
def rmpUpd (r : Rmp) : Verdict Rmp :=
  .done { r with present := wrap32 (rampNext r) } (wrap32 (rampNext r)) 0

/-- R196: exact equality. -/
def rmpConv (r : Rmp) : Verdict Rmp := .done r (bitWord (r.present == r.target)) 0

/-- R197: the attribute a selector names; none above 5. -/
def rmpField (sel : Nat) (r : Rmp) : Option Word :=
  match sel with
  | 0 => some (bitWord r.valid)
  | 1 => some r.present
  | 2 => some r.target
  | 3 => some r.inc
  | 4 => some r.dec
  | 5 => some r.tick
  | _ => none

/-- R197. -/
def rmpRd (sel : Word) (r : Rmp) : Verdict Rmp :=
  match rmpField (u32 sel) r with
  | some v => .done r v 0
  | none => .raise .eArg

/-- R191. -/
def execRmpInit (n : Nat) (s : State P) : Host.Outcome (State P) Fault Refusal :=
  .next (s.rmpCommand anyCopy n (rmpInit s.arg0 s.arg1 s.arg2))
/-- R193. -/
def execRmpSett (n : Nat) (s : State P) : Host.Outcome (State P) Fault Refusal :=
  .next (s.rmpCommand Rmp.valid n (rmpSett s.arg0))
/-- R194. -/
def execRmpDelta (n : Nat) (s : State P) : Host.Outcome (State P) Fault Refusal :=
  .next (s.rmpCommand Rmp.valid n rmpDelta)
/-- R195. -/
def execRmpUpd (n : Nat) (s : State P) : Host.Outcome (State P) Fault Refusal :=
  .next (s.rmpCommand Rmp.valid n rmpUpd)
/-- R196. -/
def execRmpConv (n : Nat) (s : State P) : Host.Outcome (State P) Fault Refusal :=
  .next (s.rmpCommand Rmp.valid n rmpConv)
/-- R197. -/
def execRmpRd (n : Nat) (s : State P) : Host.Outcome (State P) Fault Refusal :=
  .next (s.rmpCommand anyCopy n (rmpRd s.arg0))

end Sys2Proof.Machine
end

