-- ==== Sys2Proof/Machine/System.lean ====
section
/-! DEFINITION. The SYS commands (spec 45_sys.md R220 to R223). -/

namespace Sys2Proof.Machine

open Sys2Proof.Config

variable {P : Params}

/-- R221. -/
def execSysNop (s : State P) : Host.Outcome (State P) Fault Refusal := .next (s.complete 0 0)
/-- R222: STICKY is cleared, then the command completes. -/
def execSysClrst (s : State P) : Host.Outcome (State P) Fault Refusal :=
  .next (State.complete 0 0 { s with sticky := 0 })
/-- R223: the reset of 70_reset_and_hazards.md R261; "the 0 the reset leaves is its outcome". -/
def execSysReset (s : State P) : Host.Outcome (State P) Fault Refusal := .next s.resetBlock

end Sys2Proof.Machine
end

