-- ==== Sys2Proof/Machine/Timer.lean ====
section
/-! DEFINITION. The TMR commands (spec 41_timer.md R130 to R137). Time enters only as an ARG operand (R130). -/

namespace Sys2Proof.Machine

open Sys2Proof.Config

variable {P : Params}

/-- R130: a time difference, modulo 2^32. -/
def elapsedSince (now ref : Word) : Word := ofU32 (wrapu32 ((u32 now : Int) - u32 ref))

/-- R131: construction discards all earlier state. -/
def tmrInit (period : Word) (_ : Tmr) : Verdict Tmr :=
  .done { valid := true, period := period, lastBucket := 0, startRef := 0, frozen := 0, running := false } 0 0

/-- R132: fires when the bucket differs from the last one; period 0 never divides. -/
def tmrDue (now : Word) (t : Tmr) : Verdict Tmr :=
  if u32 t.period = 0 then .done t 0 0
  else
    let bucket := ofU32 (udiv (u32 now) (u32 t.period))
    .done { t with lastBucket := bucket } (bitWord (bucket != t.lastBucket)) 0

/-- R133: `lastBucket` and the stopwatch stay. -/
def tmrSetp (period : Word) (t : Tmr) : Verdict Tmr := .done { t with period := period } 0 0

/-- R134: `frozen` stays. -/
def tmrStart (now : Word) (t : Tmr) : Verdict Tmr := .done { t with startRef := now, running := true } 0 0

/-- R135: a stopped stopwatch keeps its frozen value. -/
def tmrStop (now : Word) (t : Tmr) : Verdict Tmr :=
  if t.running then .done { t with frozen := elapsedSince now t.startRef, running := false } 0 0
  else .done t 0 0

/-- R136. -/
def tmrElap (now : Word) (t : Tmr) : Verdict Tmr :=
  .done t (if t.running then elapsedSince now t.startRef else t.frozen) 0

/-- R137: the attribute a selector names; none above 5. -/
def tmrField (sel : Nat) (t : Tmr) : Option Word :=
  match sel with
  | 0 => some (bitWord t.valid)
  | 1 => some t.period
  | 2 => some t.lastBucket
  | 3 => some t.startRef
  | 4 => some t.frozen
  | 5 => some (bitWord t.running)
  | _ => none

/-- R137. -/
def tmrRd (sel : Word) (t : Tmr) : Verdict Tmr :=
  match tmrField (u32 sel) t with
  | some v => .done t v 0
  | none => .raise .eArg

/-- R131. -/
def execTmrInit (n : Nat) (s : State P) : Host.Outcome (State P) Fault Refusal :=
  .next (s.tmrCommand anyCopy n (tmrInit s.arg0))
/-- R132. -/
def execTmrDue (n : Nat) (s : State P) : Host.Outcome (State P) Fault Refusal :=
  .next (s.tmrCommand Tmr.valid n (tmrDue s.arg0))
/-- R133. -/
def execTmrSetp (n : Nat) (s : State P) : Host.Outcome (State P) Fault Refusal :=
  .next (s.tmrCommand Tmr.valid n (tmrSetp s.arg0))
/-- R134. -/
def execTmrStart (n : Nat) (s : State P) : Host.Outcome (State P) Fault Refusal :=
  .next (s.tmrCommand Tmr.valid n (tmrStart s.arg0))
/-- R135. -/
def execTmrStop (n : Nat) (s : State P) : Host.Outcome (State P) Fault Refusal :=
  .next (s.tmrCommand Tmr.valid n (tmrStop s.arg0))
/-- R136. -/
def execTmrElap (n : Nat) (s : State P) : Host.Outcome (State P) Fault Refusal :=
  .next (s.tmrCommand Tmr.valid n (tmrElap s.arg0))
/-- R137. -/
def execTmrRd (n : Nat) (s : State P) : Host.Outcome (State P) Fault Refusal :=
  .next (s.tmrCommand anyCopy n (tmrRd s.arg0))

end Sys2Proof.Machine
end

