-- ==== Sys2Proof/Machine/Dispatch.lean ====
section
/-! DEFINITION. One arm per command: its meaning (spec 30_encoding.md R83, `perform RULE(opc) with n = inst`). -/

namespace Sys2Proof.Machine

def exec (i : Instr) (s : State) : Host.Outcome State Fault Refusal :=
  match i with
  | .fxF2x => Sys2Proof.Machine.execFxF2x s
  | .fxX2f => Sys2Proof.Machine.execFxX2f s
  | .fxI2x => Sys2Proof.Machine.execFxI2x s
  | .fxX2i => Sys2Proof.Machine.execFxX2i s
  | .fxMul => Sys2Proof.Machine.execFxMul s
  | .fxDiv => Sys2Proof.Machine.execFxDiv s
  | .fxAdd => Sys2Proof.Machine.execFxAdd s
  | .fxSub => Sys2Proof.Machine.execFxSub s
  | .fxMac => Sys2Proof.Machine.execFxMac s
  | .fxTc => Sys2Proof.Machine.execFxTc s
  | .fxFc => Sys2Proof.Machine.execFxFc s
  | .tmrInit n => Sys2Proof.Machine.execTmrInit n s
  | .tmrDue n => Sys2Proof.Machine.execTmrDue n s
  | .tmrSetp n => Sys2Proof.Machine.execTmrSetp n s
  | .tmrStart n => Sys2Proof.Machine.execTmrStart n s
  | .tmrStop n => Sys2Proof.Machine.execTmrStop n s
  | .tmrElap n => Sys2Proof.Machine.execTmrElap n s
  | .tmrRd n => Sys2Proof.Machine.execTmrRd n s
  | .iirInit n => Sys2Proof.Machine.execIirInit n s
  | .iirInittc n => Sys2Proof.Machine.execIirInittc n s
  | .iirStep n => Sys2Proof.Machine.execIirStep n s
  | .iirRd n => Sys2Proof.Machine.execIirRd n s
  | .mavInit n => Sys2Proof.Machine.execMavInit n s
  | .mavStep n => Sys2Proof.Machine.execMavStep n s
  | .mavRd n => Sys2Proof.Machine.execMavRd n s
  | .rmpInit n => Sys2Proof.Machine.execRmpInit n s
  | .rmpSett n => Sys2Proof.Machine.execRmpSett n s
  | .rmpDelta n => Sys2Proof.Machine.execRmpDelta n s
  | .rmpUpd n => Sys2Proof.Machine.execRmpUpd n s
  | .rmpConv n => Sys2Proof.Machine.execRmpConv n s
  | .rmpRd n => Sys2Proof.Machine.execRmpRd n s
  | .sysNop => Sys2Proof.Machine.execSysNop s
  | .sysClrst => Sys2Proof.Machine.execSysClrst s
  | .sysReset => Sys2Proof.Machine.execSysReset s

end Sys2Proof.Machine
end

