-- ==== Sys2Proof/Machine/Window.lean ====
section
/-! DEFINITION. The host register window (spec 10_state.md R20 to R26; 20_memory.md R60 to R66): which accesses are
legal, what each register returns and what a write to it does, a command written to CMD, and the hardware reset. -/

namespace Sys2Proof.Machine

open Sys2Proof.Config

variable {P : Params}

/-- R20: the registers of the window. -/
inductive WindowReg where
  | cmd | arg0 | arg1 | arg2 | arg3 | res0 | res1 | status | id | param0 | param1
  /-- Offsets 0x2C to 0x3C. -/
  | reserved
deriving DecidableEq, Repr

/-- R20: the register at a byte offset. -/
def windowReg (off : Nat) : WindowReg :=
  match off with
  | 0x00 => .cmd
  | 0x04 => .arg0
  | 0x08 => .arg1
  | 0x0C => .arg2
  | 0x10 => .arg3
  | 0x14 => .res0
  | 0x18 => .res1
  | 0x1C => .status
  | 0x20 => .id
  | 0x24 => .param0
  | 0x28 => .param1
  | _ => .reserved

/-- R61: the window accepts only 32-bit accesses at multiples of 4 below 0x40. -/
def legalAccess (off n : Nat) : Bool := n == 4 && off % 4 == 0 && decide (off < 0x40)

/-- R24: the ID constant. -/
def idWord : Word := 0x46584D43
/-- R25: PARAM0 of a block with the parameters P. -/
def param0Word (P : Params) : Word :=
  BitVec.ofNat 8 P.nRmp ++ BitVec.ofNat 8 P.nMav ++ BitVec.ofNat 8 P.nIir ++ BitVec.ofNat 8 P.nTmr
/-- R26: PARAM1 of a block with the parameters P. -/
def param1Word (P : Params) : Word := 0#16 ++ BitVec.ofNat 16 P.maxWin

/-- R63, R20: what a read of a register returns. -/
def State.readReg (s : State P) : WindowReg → Word
  | .cmd => 0
  | .arg0 => s.arg0
  | .arg1 => s.arg1
  | .arg2 => s.arg2
  | .arg3 => s.arg3
  | .res0 => s.res0
  | .res1 => s.res1
  | .status => s.statusWord
  | .id => idWord
  | .param0 => param0Word P
  | .param1 => param1Word P
  | .reserved => 0

/-- 30_encoding.md R83: a word written to CMD is decoded and its command performed by `run`, or E_ILLEGAL is raised. -/
def performCommandBy (run : Instr → State P → Host.Outcome (State P) Fault Refusal) (w : Word) (s : State P) :
    Host.Outcome (State P) Fault Refusal :=
  match decode w with
  | .ok i => run i s
  | .error _ => .next (s.raise .eIllegal)

/-- R64: what a write to a register does; a write to a read-only or reserved register is ignored. -/
def State.writeRegBy (run : Instr → State P → Host.Outcome (State P) Fault Refusal) (s : State P) (r : WindowReg)
    (v : Word) : Host.Outcome (State P) Fault Refusal :=
  match r with
  | .cmd => performCommandBy run v s
  | .arg0 => .next { s with arg0 := v }
  | .arg1 => .next { s with arg1 := v }
  | .arg2 => .next { s with arg2 := v }
  | .arg3 => .next { s with arg3 := v }
  | .res0 | .res1 | .status | .id | .param0 | .param1 | .reserved => .next s

/-- 60_exceptions.md R245: one interaction with the outside world, performed on the block. A read returns its value to
the host, which the model keeps in `readLog` (R246). -/
def performOpBy (run : Instr → State P → Host.Outcome (State P) Fault Refusal) (op : HostOp) (s : State P) :
    Host.Outcome (State P) Fault Refusal :=
  match op with
  | .write off n v => if legalAccess off n then s.writeRegBy run (windowReg off) v else .fault (.busError off n)
  | .read off n =>
    if legalAccess off n then .next { s with readLog := s.readLog ++ [s.readReg (windowReg off)] }
    else .fault (.busError off n)
  | .hardwareReset => .next s.resetBlock

/-- R245: one step: the oldest pending interaction is performed. With nothing pending the block waits
(70_reset_and_hazards.md R262), and the step changes nothing (log 1). -/
def stepBy (run : Instr → State P → Host.Outcome (State P) Fault Refusal) (s : State P) :
    Host.Outcome (State P) Fault Refusal :=
  match s.pending with
  | [] => .next s
  | op :: later => performOpBy run op { s with pending := later }

/-- R83: a word written to CMD of this block. -/
def performCommand (w : Word) (s : State) : Host.Outcome State Fault Refusal := performCommandBy exec w s

/-- R245: one interaction with this block. -/
def performOp (op : HostOp) (s : State) : Host.Outcome State Fault Refusal := performOpBy exec op s

/-- 60_exceptions.md R237: the block after the access that the step stopped on: unchanged, and ready for the host's next
access, for a host that goes on (log 2). -/
def State.afterBusError (s : State P) : State P := { s with pending := s.pending.tail }

/-- 00_scope.md R6, 20_memory.md R61: the byte offset of a bus address at or above P_BASE; none below it, where the
address is not the block's (log 4). -/
def offsetOfAddress (addr : Nat) : Option Nat := if P_BASE ≤ addr then some (addr - P_BASE) else none

/-- The pending list after the host's CMD write of the command word whose `nbits` bits are `w`. -/
def commandFirst (nbits w : Nat) (later : List HostOp) : List HostOp :=
  .write 0x00 4 (BitVec.ofNat 32 (w % 2 ^ nbits)) :: later

end Sys2Proof.Machine
end

