-- ==== Sys2Proof/Machine/Step.lean ====
section
/-! DEFINITION. One step: the oldest pending interaction of the outside world is performed (spec 60_exceptions.md R245,
"one step"; 20_memory.md R66, R67). -/

namespace Sys2Proof.Machine

/-- R245, for this block. -/
def step (s : State) : Host.Outcome State Fault Refusal := stepBy exec s

/-- The block takes its next command from the host's next CMD write, so that write is put before all that is pending
(log 1). -/
def State.withFetchWord (s : State) (nbits w : Nat) : State := { s with pending := commandFirst nbits w s.pending }

end Sys2Proof.Machine
end

