-- ==== Sys2Proof/Machine/AnyBlock.lean ====
section
/-! DEFINITION. The machine with the parameters of spec 00_scope.md R6 as arguments: a block with any instance counts and
any buffer capacity (93_implementation_defined.md V13). `exec` and `step` are this machine at this block's values
(Laws/Exec.lean). -/

namespace Sys2Proof.Machine

open Sys2Proof.Config

variable {P : Params}

/-- 30_encoding.md R83, `perform RULE(opc) with n = inst`, on a block with the parameters P. -/
def execFor (i : Instr) (s : State P) : Host.Outcome (State P) Fault Refusal :=
  match i with
  | .fxF2x => execFxF2x s
  | .fxX2f => execFxX2f s
  | .fxI2x => execFxI2x s
  | .fxX2i => execFxX2i s
  | .fxMul => execFxMul s
  | .fxDiv => execFxDiv s
  | .fxAdd => execFxAdd s
  | .fxSub => execFxSub s
  | .fxMac => execFxMac s
  | .fxTc => execFxTc s
  | .fxFc => execFxFc s
  | .tmrInit n => execTmrInit n s
  | .tmrDue n => execTmrDue n s
  | .tmrSetp n => execTmrSetp n s
  | .tmrStart n => execTmrStart n s
  | .tmrStop n => execTmrStop n s
  | .tmrElap n => execTmrElap n s
  | .tmrRd n => execTmrRd n s
  | .iirInit n => execIirInit n s
  | .iirInittc n => execIirInittc n s
  | .iirStep n => execIirStep n s
  | .iirRd n => execIirRd n s
  | .mavInit n => execMavInit n s
  | .mavStep n => execMavStep n s
  | .mavRd n => execMavRd n s
  | .rmpInit n => execRmpInit n s
  | .rmpSett n => execRmpSett n s
  | .rmpDelta n => execRmpDelta n s
  | .rmpUpd n => execRmpUpd n s
  | .rmpConv n => execRmpConv n s
  | .rmpRd n => execRmpRd n s
  | .sysNop => execSysNop s
  | .sysClrst => execSysClrst s
  | .sysReset => execSysReset s

/-- 60_exceptions.md R245, one step of a block with the parameters P. -/
def stepFor (s : State P) : Host.Outcome (State P) Fault Refusal := stepBy execFor s

end Sys2Proof.Machine
end

