-- ==== Sys2Proof/Safety.lean ====
section
/-! DEFINITION. What the claims are stated in terms of: the invariants the spec gives (10_state.md R28 to R33), the
reset state (70_reset_and_hazards.md R261), the decode checks as one function (30_encoding.md R83), and sequences of
commands. -/

namespace Sys2Proof

/-- R83: NEEDS_NO_CONFIG, the commands that run on an unconfigured copy. -/
def Instr.needsNoConfig : Instr → Bool
  | .tmrInit _ | .tmrRd _ | .iirInit _ | .iirInittc _ | .iirRd _ | .mavInit _ | .mavRd _ | .rmpInit _ | .rmpRd _ => true
  | .fxF2x | .fxX2f | .fxI2x | .fxX2i | .fxMul | .fxDiv | .fxAdd | .fxSub | .fxMac | .fxTc | .fxFc
  | .tmrDue _ | .tmrSetp _ | .tmrStart _ | .tmrStop _ | .tmrElap _ | .iirStep _ | .mavStep _
  | .rmpSett _ | .rmpDelta _ | .rmpUpd _ | .rmpConv _ | .sysNop | .sysClrst | .sysReset => false

end Sys2Proof

namespace Sys2Proof.Machine

open Sys2Proof.Config

variable {P : Params}

/-- 10_state.md R22, R23, 60_exceptions.md R231: the block after a command that completes with these results and
changes nothing else. -/
def State.completed (s : State P) (r0 r1 : Word) : State P := { s with res0 := r0, res1 := r1, code := .ok }

/-- R231: the block after a command that raises code c. -/
def State.faulted (s : State P) (c : Code) : State P :=
  { s with code := c, sticky := s.sticky ||| (1 : BitVec 6) <<< (c.toNat - 1) }

/-- The block with TMR copy `n` replaced and nothing else changed. -/
def State.withTmr (s : State P) (n : Nat) (h : n < P.nTmr) (new : Tmr) : State P :=
  { s with tmr := s.tmr.set n new h }

/-- The block with IIR copy `n` replaced and nothing else changed. -/
def State.withIir (s : State P) (n : Nat) (h : n < P.nIir) (new : Iir) : State P :=
  { s with iir := s.iir.set n new h }

/-- The block with MAV copy `n` replaced and nothing else changed. -/
def State.withMav (s : State P) (n : Nat) (h : n < P.nMav) (new : Mav) : State P :=
  { s with mav := s.mav.set n new h }

/-- The block with RMP copy `n` replaced and nothing else changed. -/
def State.withRmp (s : State P) (n : Nat) (h : n < P.nRmp) (new : Rmp) : State P :=
  { s with rmp := s.rmp.set n new h }

/-- 30_encoding.md R87: the words that are no command, by the values of RSV, OPC and INST. -/
def IllegalWord (w : Word) : Prop :=
  let rsv := w.toNat / 65536
  let inst := w.toNat / 256 % 256
  let opc := w.toNat % 256
  rsv ≠ 0 ∨
  (opc = 0x00 ∨ 0x0C ≤ opc ∧ opc ≤ 0x0F ∨ 0x16 ≤ opc ∧ opc ≤ 0x1E ∨ 0x23 ≤ opc ∧ opc ≤ 0x2E ∨
    0x32 ≤ opc ∧ opc ≤ 0x3E ∨ 0x45 ≤ opc ∧ opc ≤ 0x4E ∨ 0x50 ≤ opc ∧ opc ≤ 0xEF ∨ 0xF3 ≤ opc ∧ opc ≤ 0xFF) ∨
  ((0x01 ≤ opc ∧ opc ≤ 0x0B ∨ 0xF0 ≤ opc ∧ opc ≤ 0xF2) ∧ inst ≠ 0)

/-- 30_encoding.md R80, R84: the word `(n << 8) | OPC` is the command `f n`, for every INST value. -/
def HasOpcode (opc : Nat) (f : Nat → Instr) : Prop :=
  ∀ n, n < 256 → decode (BitVec.ofNat 32 (n * 256 + opc)) = .ok (f n)

/-- R83: an INST value at or above the unit's count raises E_INST. -/
def ChecksInst (count : Nat) (f : Nat → Instr) : Prop :=
  ∀ (n : Nat) (s : State), count ≤ n → exec (f n) s = .next (s.faulted .eInst)

/-- 00_scope.md R12: the integer nearest a rational in the direction of zero. -/
def truncRat (q : ℚ) : Int := if 0 ≤ q then ⌊q⌋ else ⌈q⌉

/-- 00_scope.md R12: `g` is a binary32 pattern nearest to `x`, with an even fraction where another is as near. -/
structure IsNearestEven (x : ℚ) (g : Word) : Prop where
  finite : f32finite g = true
  nearest : ∀ h, f32finite h = true → |f32val g - x| ≤ |f32val h - x|
  tieEven : ∀ h, f32finite h = true → f32val h ≠ f32val g → |f32val g - x| = |f32val h - x| → f32frac g % 2 = 0

/-- 41_timer.md R132, R138: the answers of polls at the given times, from the bucket of the last poll. -/
def fires (period : Nat) : Nat → List Word → List Word
  | _, [] => []
  | last, x :: xs => (if u32 x / period ≠ last then 1 else 0) :: fires period (u32 x / period) xs

/-- 10_state.md R36: two states agree on the copy that a command selects. -/
def sameCopy (i : Instr) (s s' : State P) : Prop :=
  match i.unit with
  | .tmr => s.tmr[i.inst]? = s'.tmr[i.inst]?
  | .iir => s.iir[i.inst]? = s'.iir[i.inst]?
  | .mav => s.mav[i.inst]? = s'.mav[i.inst]?
  | .rmp => s.rmp[i.inst]? = s'.rmp[i.inst]?
  | .fx | .sys => True

/-- R83: `U(unit)[inst].valid`; false where the copy does not exist. -/
def State.copyValid (s : State P) (u : CommandUnit) (n : Nat) : Bool :=
  match u with
  | .tmr => if h : n < P.nTmr then s.tmr[n].valid else false
  | .iir => if h : n < P.nIir then s.iir[n].valid else false
  | .mav => if h : n < P.nMav then s.mav[n].valid else false
  | .rmp => if h : n < P.nRmp then s.rmp[n].valid else false
  | .fx | .sys => false

/-- R83: on an existing copy that is not configured the command raises E_UNCONF. -/
def ChecksConfigured (u : CommandUnit) (count : Nat) (f : Nat → Instr) : Prop :=
  ∀ (n : Nat) (s : State), n < count → s.copyValid u n = false → exec (f n) s = .next (s.faulted .eUnconf)

/-- 10_state.md R27, 41_timer.md R137: a copy that is not configured holds its reset values. -/
def Tmr.Inv (t : Tmr) : Prop := t.valid = false → t = Tmr.atReset

/-- 10_state.md R28: a configured LOWPASS filter's output is its estimate; an unconfigured copy holds its reset values. -/
structure Iir.Inv (f : Iir) : Prop where
  unconfigured : f.valid = false → f = Iir.atReset
  lowpassOut : f.mode = .lowpass → f.out = f.lp

/-- The exact sum of the first `k` slots. -/
def slotSum (m : SampleMemory) : Nat → Int
  | 0 => 0
  | k + 1 => slotSum m k + s32 (bufRead m k)

/-- 10_state.md R29 to R31: the window, the cursor, the running sum and the output of a configured copy. -/
structure Mav.Configured (capacity : Nat) (a : Mav) : Prop where
  winPos : 1 ≤ u32 a.win
  winMax : u32 a.win ≤ capacity
  cursorLt : u32 a.cursor < u32 a.win
  sumExact : s64 a.sum = slotSum a.buf (u32 a.win)
  outExact : s32 a.out = tdiv (s64 a.sum) (u32 a.win)

/-- 10_state.md R29 to R31, with the sample memory in its canonical form. -/
structure Mav.Inv (capacity : Nat) (a : Mav) : Prop where
  bufWf : SampleMemory.wf capacity a.buf
  unconfigured : a.valid = false → a = Mav.atReset
  configured : a.valid = true → a.Configured capacity

/-- 10_state.md R33: rates and tick are not negative, and no step overflows. -/
structure Rmp.Configured (r : Rmp) : Prop where
  incNonneg : 0 ≤ s32 r.inc
  decNonneg : 0 ≤ s32 r.dec
  tickNonneg : 0 ≤ s32 r.tick
  stepFits : asr (max (s32 r.inc) (s32 r.dec) * s32 r.tick) 16 ≤ 2 ^ 31 - 1

/-- 10_state.md R33. -/
structure Rmp.Inv (r : Rmp) : Prop where
  unconfigured : r.valid = false → r = Rmp.atReset
  configured : r.valid = true → r.Configured

/-- The invariant of a whole block with the parameters P. -/
structure State.Inv (s : State P) : Prop where
  tmr : ∀ n (h : n < P.nTmr), s.tmr[n].Inv
  iir : ∀ n (h : n < P.nIir), s.iir[n].Inv
  mav : ∀ n (h : n < P.nMav), s.mav[n].Inv P.maxWin
  rmp : ∀ n (h : n < P.nRmp), s.rmp[n].Inv

/-- 70_reset_and_hazards.md R261, field by field. -/
structure State.IsReset (s : State) : Prop where
  args : s.arg0 = 0 ∧ s.arg1 = 0 ∧ s.arg2 = 0 ∧ s.arg3 = 0
  results : s.res0 = 0 ∧ s.res1 = 0
  status : s.statusWord = 0
  hardwired : s.readReg .id = 0x46584D43 ∧ s.readReg .param0 = 0x04040404 ∧ s.readReg .param1 = 0x00000040
  tmr : ∀ n (h : n < P_NTMR), s.tmr[n].valid = false ∧ s.tmr[n].period = 0 ∧ s.tmr[n].lastBucket = 0 ∧
    s.tmr[n].startRef = 0 ∧ s.tmr[n].frozen = 0 ∧ s.tmr[n].running = false
  iir : ∀ n (h : n < P_NIIR), s.iir[n].valid = false ∧ s.iir[n].mode = .lowpass ∧ s.iir[n].tc = 0 ∧
    s.iir[n].lp = 0 ∧ s.iir[n].out = 0
  mav : ∀ n (h : n < P_NMAV), s.mav[n].valid = false ∧ s.mav[n].win = 0 ∧ s.mav[n].cursor = 0 ∧
    s.mav[n].sum = 0 ∧ s.mav[n].out = 0 ∧ ∀ k, k < P_MAXWIN → bufRead s.mav[n].buf k = 0
  rmp : ∀ n (h : n < P_NRMP), s.rmp[n].valid = false ∧ s.rmp[n].present = 0 ∧ s.rmp[n].target = 0 ∧
    s.rmp[n].inc = 0 ∧ s.rmp[n].dec = 0 ∧ s.rmp[n].tick = 0

/-- 30_encoding.md R89: `wr ARG0, x` and then the command: the next state and the value left in RES0. -/
def withArg0 (i : Instr) (x : Word) (s : State) : Option (State × Word) :=
  match exec i { s with arg0 := x } with
  | .next t => some (t, t.res0)
  | _ => none

/-- A command issued once for each operand of a list, each operand written to ARG0 first: the last state and the values
left in RES0, in order. -/
def withArgs0 (i : Instr) : List Word → State → Option (State × List Word)
  | [], s => some (s, [])
  | x :: xs, s =>
    match withArg0 i x s with
    | none => none
    | some (t, r) =>
      match withArgs0 i xs t with
      | none => none
      | some (u, rs) => some (u, r :: rs)

/-- A command issued `k` times: the last state. -/
def repeated (i : Instr) : Nat → State → Option State
  | 0, s => some s
  | k + 1, s =>
    match exec i s with
    | .next t => repeated i k t
    | _ => none

end Sys2Proof.Machine
end

