-- ==== Sys2Proof/Certificates/Slice0/Obligations.lean ====
section
/-! DEFINITION. The statements about the model, from the spec's numbered rules. `State.completed`, `State.faulted` and
the other terms that are not the machine's own stand in Sys2Proof/Safety.lean. -/

open Sys2Proof Sys2Proof.Machine Sys2Proof.Config

-- Encoding

/-- 30_encoding.md R80, R82, R84: encoding loses nothing. -/
def Obligations.DecodeOfEncode : Prop :=
  ∀ i : Instr, i.WellFormed → decode (encode i) = .ok i

/-- R83, R84: a word has one meaning, and the meaning gives the word back. -/
def Obligations.EncodeOfDecode : Prop :=
  ∀ (w : Word) (i : Instr), decode w = .ok i → i.WellFormed ∧ encode i = w

/-- R87: exactly the listed words raise E_ILLEGAL, with no other effect; every other word performs a command. -/
def Obligations.IllegalWordsRaise : Prop :=
  ∀ (w : Word) (s : State),
    (IllegalWord w → performCommand w s = .next (s.faulted .eIllegal)) ∧
    (¬ IllegalWord w → ∃ i, decode w = .ok i ∧ performCommand w s = exec i s)

/-- R84: words written out bit by bit from the opcode map, one or more for each unit. -/
def Obligations.SpecWordsDecode : Prop :=
  decode 0b00000000000000000000000000000001#32 = .ok .fxF2x ∧
  decode 0b00000000000000000000000000001001#32 = .ok .fxMac ∧
  decode 0b00000000000000000000001100010001#32 = .ok (.tmrDue 3) ∧
  decode 0b00000000000000001111111100011111#32 = .ok (.tmrRd 255) ∧
  decode 0b00000000000000000000000100100010#32 = .ok (.iirStep 1) ∧
  decode 0b00000000000000000000001000110000#32 = .ok (.mavInit 2) ∧
  decode 0b00000000000000000000000001000011#32 = .ok (.rmpUpd 0) ∧
  decode 0b00000000000000000000000011110010#32 = .ok .sysReset ∧
  decode 0b00000000000000010000000000110001#32 = .error .reservedNonzero

-- The window and the step

/-- R66, R83: a step whose next interaction is a CMD write performs the command the word decodes to. -/
def Obligations.StepPerformsCommand : Prop :=
  ∀ (s : State) (w : Word) (later : List HostOp), s.pending = .write 0x00 4 w :: later →
    (∀ i, decode w = .ok i → i.WellFormed → step s = exec i { s with pending := later }) ∧
    (∀ e, decode w = .error e → step s = .next (State.faulted { s with pending := later } .eIllegal))

/-- R83, R232: E_INST before E_UNCONF, each with no other effect. -/
def Obligations.DecodeChecksInOrder : Prop :=
  ∀ (i : Instr) (s : State) (count : Nat), i.unit.count = some count →
    (count ≤ i.inst → exec i s = .next (s.faulted .eInst)) ∧
    (i.inst < count → i.needsNoConfig = false → s.copyValid i.unit i.inst = false →
      exec i s = .next (s.faulted .eUnconf))

/-- 20_memory.md R63: a legal read returns the register's value and changes nothing. -/
def Obligations.ReadReturnsRegister : Prop :=
  ∀ (s : State) (off : Nat) (later : List HostOp), s.pending = .read off 4 :: later → off % 4 = 0 → off < 0x40 →
    step s = .next { s with pending := later, readLog := s.readLog ++ [
      if off = 0x04 then s.arg0 else if off = 0x08 then s.arg1 else if off = 0x0C then s.arg2
      else if off = 0x10 then s.arg3 else if off = 0x14 then s.res0 else if off = 0x18 then s.res1
      else if off = 0x1C then s.statusWord else if off = 0x20 then 0x46584D43 else if off = 0x24 then 0x04040404
      else if off = 0x28 then 0x00000040 else 0] }

/-- 10_state.md R23, 60_exceptions.md R230: the fields of STATUS as read, and the number of each code. -/
def Obligations.StatusWordFields : Prop :=
  (∀ s : State, s.statusWord.toNat % 16 = s.code.toNat ∧ s.statusWord.toNat / 16 % 32 = 0 ∧
    s.statusWord.toNat / 512 % 64 = s.sticky.toNat ∧ s.statusWord.toNat / 32768 = 0) ∧
  Code.toNat .ok = 0 ∧ Code.toNat .eIllegal = 1 ∧ Code.toNat .eInst = 2 ∧ Code.toNat .eUnconf = 3 ∧
  Code.toNat .eDiv0 = 4 ∧ Code.toNat .eFrange = 5 ∧ Code.toNat .eArg = 6

/-- R64: what a legal write does, offset by offset. -/
def Obligations.WriteEffects : Prop :=
  ∀ (s : State) (off : Nat) (v : Word) (later : List HostOp), s.pending = .write off 4 v :: later →
    (off = 0x00 → step s = performCommand v { s with pending := later }) ∧
    (off = 0x04 → step s = .next { s with pending := later, arg0 := v }) ∧
    (off = 0x08 → step s = .next { s with pending := later, arg1 := v }) ∧
    (off = 0x0C → step s = .next { s with pending := later, arg2 := v }) ∧
    (off = 0x10 → step s = .next { s with pending := later, arg3 := v }) ∧
    (off % 4 = 0 → 0x14 ≤ off → off < 0x40 → step s = .next { s with pending := later })

/-- R61: exactly the accesses of another width, alignment or offset stop the step with a bus error, the block being
unchanged (and, by the model's choice of log 2, ready for the next access in `State.afterBusError`). -/
def Obligations.BadAccessIsBusError : Prop :=
  ∀ (s : State) (op : HostOp) (off n : Nat) (v : Word) (later : List HostOp),
    (op = .write off n v ∨ op = .read off n) → s.pending = op :: later →
    ((n ≠ 4 ∨ off % 4 ≠ 0 ∨ 0x40 ≤ off) →
      step s = .fault (.busError off n) ∧ s.afterBusError = { s with pending := later }) ∧
    (n = 4 → off % 4 = 0 → off < 0x40 → ∃ t, step s = .next t)

/-- 70_reset_and_hazards.md R261: every field after reset, for the state right after power-up, the hardware reset event
and SYS.RESET alike. That a reset leaves the host's side (`pending`, `readLog`) is the model's choice (log 10). -/
def Obligations.ResetValues : Prop :=
  State.reset.IsReset ∧
  (∀ (s : State) (later : List HostOp), s.pending = .hardwareReset :: later →
    ∃ t, step s = .next t ∧ t.IsReset ∧ t.pending = later ∧ t.readLog = s.readLog) ∧
  (∀ s : State, ∃ t, exec .sysReset s = .next t ∧ t.IsReset ∧ t.pending = s.pending ∧ t.readLog = s.readLog)

/-- 45_sys.md R223, 70_reset_and_hazards.md R263, R264: SYS.RESET does what the hardware reset does; a word of it with
INST 1 resets nothing; after it every command that needs a configured copy raises E_UNCONF. -/
def Obligations.SysResetIsHardwareReset : Prop :=
  decode 0x000000F2#32 = .ok .sysReset ∧
  (∀ s : State, performCommand 0x000001F2#32 s = .next (s.faulted .eIllegal)) ∧
  (∀ s : State, exec .sysReset s = performOp .hardwareReset s) ∧
  (∀ (s t : State) (i : Instr) (count : Nat), exec .sysReset s = .next t → i.unit.count = some count →
    i.inst < count → i.needsNoConfig = false → exec i t = .next (t.faulted .eUnconf))

-- The invariant

/-- The invariant holds after reset. -/
def Obligations.ResetMeetsInvariant : Prop := State.reset.Inv

/-- 10_state.md R28, R29, R31, R33: from every state that meets it, every step keeps the invariant: the exact running
sum and mean of each moving average, cursor and window in range, ramps whose step cannot overflow, a LOWPASS output equal
to its estimate, unconfigured copies at their reset values, and the sample memories in canonical form. -/
def Obligations.StepKeepsInvariant : Prop :=
  ∀ s s' : State, s.Inv → step s = .next s' → s'.Inv

-- Rules about every command

/-- 60_exceptions.md R231: every command either completes, with CODE 0 and STICKY unchanged (but for SYS.CLRST and
SYS.RESET), or raises one code and changes nothing but STATUS. -/
def Obligations.CompleteOrRaiseOnly : Prop :=
  ∀ (i : Instr) (s : State), ∃ t, exec i s = .next t ∧
    ((t.code = .ok ∧ (i ≠ .sysClrst → i ≠ .sysReset → t.sticky = s.sticky)) ∨
     ∃ c : Code, c ≠ .ok ∧ t = s.faulted c)

/-- 10_state.md R21: no command writes an ARG register (SYS.RESET resets them), nor what belongs to the host. -/
def Obligations.CommandsKeepArgs : Prop :=
  ∀ (i : Instr) (s t : State), exec i s = .next t →
    (i ≠ .sysReset → t.arg0 = s.arg0 ∧ t.arg1 = s.arg1 ∧ t.arg2 = s.arg2 ∧ t.arg3 = s.arg3) ∧
    t.pending = s.pending ∧ t.readLog = s.readLog

/-- 10_state.md R36, 45_sys.md R220: a command writes no copy but the one it selects. -/
def Obligations.CommandWritesOnlyItsCopy : Prop :=
  ∀ (i : Instr) (s t : State), i ≠ .sysReset → exec i s = .next t →
    (∀ m (h : m < P_NTMR), (i.unit ≠ .tmr ∨ m ≠ i.inst) → t.tmr[m] = s.tmr[m]) ∧
    (∀ m (h : m < P_NIIR), (i.unit ≠ .iir ∨ m ≠ i.inst) → t.iir[m] = s.iir[m]) ∧
    (∀ m (h : m < P_NMAV), (i.unit ≠ .mav ∨ m ≠ i.inst) → t.mav[m] = s.mav[m]) ∧
    (∀ m (h : m < P_NRMP), (i.unit ≠ .rmp ∨ m ≠ i.inst) → t.rmp[m] = s.rmp[m])

/-- R36: a command reads the ARG registers and its copy alone: two states that agree on them have the same outcome, the
same results and the same copy afterwards, whatever every other copy, RES, STATUS and the host's side hold. -/
def Obligations.CommandReadsOnlyItsCopy : Prop :=
  ∀ (i : Instr) (s s' t t' : State),
    s.arg0 = s'.arg0 → s.arg1 = s'.arg1 → s.arg2 = s'.arg2 → s.arg3 = s'.arg3 → sameCopy i s s' →
    exec i s = .next t → exec i s' = .next t' →
    t.code = t'.code ∧ (t.code = .ok → t.res0 = t'.res0 ∧ t.res1 = t'.res1) ∧ sameCopy i t t'

/-- R36, 70_reset_and_hazards.md R266: commands on different copies may be issued in either order. -/
def Obligations.DistinctCopiesCommute : Prop :=
  ∀ (i j : Instr) (s a b c d : State), i ≠ .sysReset → j ≠ .sysReset → (i.unit ≠ j.unit ∨ i.inst ≠ j.inst) →
    exec i s = .next a → exec j a = .next b → exec j s = .next c → exec i c = .next d →
    b.tmr = d.tmr ∧ b.iir = d.iir ∧ b.mav = d.mav ∧ b.rmp = d.rmp

/-- 41_timer.md R131 to R138: which commands change each TMR field. -/
def Obligations.TmrFieldWriters : Prop :=
  ∀ (i : Instr) (s t : State) (n : Nat) (h : n < P_NTMR), exec i s = .next t → i ≠ .sysReset → i ≠ .tmrInit n →
    t.tmr[n].valid = s.tmr[n].valid ∧
    (i ≠ .tmrSetp n → t.tmr[n].period = s.tmr[n].period) ∧
    (i ≠ .tmrDue n → t.tmr[n].lastBucket = s.tmr[n].lastBucket) ∧
    (i ≠ .tmrStart n → t.tmr[n].startRef = s.tmr[n].startRef) ∧
    (i ≠ .tmrStop n → t.tmr[n].frozen = s.tmr[n].frozen) ∧
    (i ≠ .tmrStart n → i ≠ .tmrStop n → t.tmr[n].running = s.tmr[n].running)

/-- 42_iir.md R150: which commands change each IIR field. -/
def Obligations.IirFieldWriters : Prop :=
  ∀ (i : Instr) (s t : State) (n : Nat) (h : n < P_NIIR), exec i s = .next t →
    i ≠ .sysReset → i ≠ .iirInit n → i ≠ .iirInittc n →
    t.iir[n].valid = s.iir[n].valid ∧ t.iir[n].mode = s.iir[n].mode ∧ t.iir[n].tc = s.iir[n].tc ∧
    (i ≠ .iirStep n → t.iir[n].lp = s.iir[n].lp ∧ t.iir[n].out = s.iir[n].out)

/-- 43_mav.md R170: which commands change each MAV field and the sample memory. -/
def Obligations.MavFieldWriters : Prop :=
  ∀ (i : Instr) (s t : State) (n : Nat) (h : n < P_NMAV), exec i s = .next t → i ≠ .sysReset → i ≠ .mavInit n →
    t.mav[n].valid = s.mav[n].valid ∧ t.mav[n].win = s.mav[n].win ∧
    (i ≠ .mavStep n → t.mav[n].cursor = s.mav[n].cursor ∧ t.mav[n].sum = s.mav[n].sum ∧
      t.mav[n].out = s.mav[n].out ∧ ∀ k, bufRead t.mav[n].buf k = bufRead s.mav[n].buf k)

/-- 44_ramp.md R190: which commands change each RMP field. -/
def Obligations.RmpFieldWriters : Prop :=
  ∀ (i : Instr) (s t : State) (n : Nat) (h : n < P_NRMP), exec i s = .next t → i ≠ .sysReset → i ≠ .rmpInit n →
    t.rmp[n].valid = s.rmp[n].valid ∧ t.rmp[n].inc = s.rmp[n].inc ∧ t.rmp[n].dec = s.rmp[n].dec ∧
    t.rmp[n].tick = s.rmp[n].tick ∧
    (i ≠ .rmpSett n → t.rmp[n].target = s.rmp[n].target) ∧
    (i ≠ .rmpUpd n → t.rmp[n].present = s.rmp[n].present)

-- FX

/-- 00_scope.md R12: the class and the exact value of a binary32 pattern, from its sign, exponent and fraction fields. -/
def Obligations.FloatClassAndValue : Prop :=
  ∀ (w : Word) (sign exp frac : Nat), sign = w.toNat / 2 ^ 31 → exp = w.toNat / 2 ^ 23 % 256 → frac = w.toNat % 2 ^ 23 →
    (exp = 255 → frac = 0 → f32class w = .infinity) ∧
    (exp = 255 → frac ≠ 0 → f32class w = .nan) ∧
    (exp = 0 → frac = 0 → f32class w = .zero ∧ f32val w = 0) ∧
    (exp = 0 → frac ≠ 0 → f32class w = .subnormal ∧
      f32val w = (-1 : ℚ) ^ sign * ((frac : ℚ) / 2 ^ 23) * (2 : ℚ) ^ (-126 : ℤ)) ∧
    (0 < exp → exp < 255 → f32class w = .normal ∧
      f32val w = (-1 : ℚ) ^ sign * (1 + (frac : ℚ) / 2 ^ 23) * (2 : ℚ) ^ ((exp : ℤ) - 127))

/-- 40_fx.md R101: FX.F2X truncates f·2^16 toward zero, and raises E_FRANGE for a NaN, an infinity or a result outside the
fix range. -/
def Obligations.FxF2xTruncates : Prop :=
  decode 0x00000001#32 = .ok .fxF2x ∧
  (∀ w : Word, (f32class w = .nan ∨ f32class w = .infinity) → f2x w = none) ∧
  (∀ (w : Word) (r : Int), f32class w ≠ .nan → f32class w ≠ .infinity → r = truncRat (f32val w * 2 ^ 16) →
    (-2 ^ 31 ≤ r → r ≤ 2 ^ 31 - 1 → f2x w = some (BitVec.ofInt 32 r)) ∧
    (r < -2 ^ 31 ∨ 2 ^ 31 - 1 < r → f2x w = none)) ∧
  (∀ (s : State) (v : Word), f2x s.arg0 = some v → exec .fxF2x s = .next (s.completed v 0)) ∧
  (∀ s : State, f2x s.arg0 = none → exec .fxF2x s = .next (s.faulted .eFrange))

/-- R102: FX.X2F rounds raw/2^16 to the nearest binary32, ties to even; 0 gives +0; the result is zero or normal. -/
def Obligations.FxX2fRoundsToNearestEven : Prop :=
  decode 0x00000002#32 = .ok .fxX2f ∧
  (∀ a : Word, IsNearestEven ((s32 a : ℚ) / 2 ^ 16) (x2f a) ∧
    (f32class (x2f a) = .zero ∨ f32class (x2f a) = .normal)) ∧
  x2f 0 = 0 ∧
  (∀ s : State, exec .fxX2f s = .next (s.completed (x2f s.arg0) 0))

/-- R103, R104: FX.I2X shifts left by 16 and wraps; FX.X2I adds half a unit and takes the floor. -/
def Obligations.FxIntegerConversions : Prop :=
  decode 0x00000003#32 = .ok .fxI2x ∧ decode 0x00000004#32 = .ok .fxX2i ∧
  (∀ s : State, exec .fxI2x s = .next (s.completed (BitVec.ofInt 32 (s.arg0.toInt * 2 ^ 16)) 0)) ∧
  (∀ s : State, exec .fxX2i s = .next (s.completed (BitVec.ofInt 32 ((s.arg0.toInt + 2 ^ 15).fdiv (2 ^ 16))) 0))

/-- R105, R107, R108, R109: multiply (floor of the product over 2^16), add, subtract and multiply-accumulate, each wrapping. -/
def Obligations.FxMulAddSubMac : Prop :=
  decode 0x00000005#32 = .ok .fxMul ∧ decode 0x00000007#32 = .ok .fxAdd ∧
  decode 0x00000008#32 = .ok .fxSub ∧ decode 0x00000009#32 = .ok .fxMac ∧
  (∀ s : State, exec .fxMul s =
    .next (s.completed (BitVec.ofInt 32 ((s.arg0.toInt * s.arg1.toInt).fdiv (2 ^ 16))) 0)) ∧
  (∀ s : State, exec .fxAdd s = .next (s.completed (s.arg0 + s.arg1) 0)) ∧
  (∀ s : State, exec .fxSub s = .next (s.completed (s.arg0 - s.arg1) 0)) ∧
  (∀ s : State, exec .fxMac s =
    .next (s.completed (s.arg2 + BitVec.ofInt 32 ((s.arg0.toInt * s.arg1.toInt).fdiv (2 ^ 16))) 0))

/-- R106: FX.DIV truncates toward zero and wraps; a zero divisor raises E_DIV0 and gives no result. -/
def Obligations.FxDivTruncates : Prop :=
  decode 0x00000006#32 = .ok .fxDiv ∧
  (∀ s : State, s.arg1 ≠ 0 → exec .fxDiv s = .next
    (s.completed (BitVec.ofInt 32 (truncRat ((s.arg0.toInt * 2 ^ 16 : ℚ) / s.arg1.toInt))) 0)) ∧
  (∀ s : State, s.arg1 = 0 → exec .fxDiv s = .next (s.faulted .eDiv0))

/-- R110, R111: the two helpers, whatever P_TCF and P_CFT are. -/
def Obligations.FxTimeConstantHelpers : Prop :=
  decode 0x0000000A#32 = .ok .fxTc ∧ decode 0x0000000B#32 = .ok .fxFc ∧
  (∀ s : State, exec .fxTc s =
    .next ((f2x (P_TCF s.arg0 s.arg1)).elim (s.faulted .eFrange) fun v => s.completed v 0)) ∧
  (∀ s : State, exec .fxFc s = .next (s.completed (P_CFT (x2f s.arg0) s.arg1) 0))

/-- R112: round trips, identities, commutativity of multiply and symmetry of divide. -/
def Obligations.FixLaws : Prop :=
  (∀ w v : Word, f2x w = some v → |f32val (x2f v) - f32val w| < 1 / 2 ^ 16 ∧
    (|f32val w| < 256 → f32val (x2f v) = (s32 v : ℚ) / 2 ^ 16) ∧
    (256 ≤ |f32val w| → f32val (x2f v) = f32val w)) ∧
  (∀ i : Word, -32768 ≤ s32 i → s32 i ≤ 32767 → x2i (i2x i) = i) ∧
  (∀ a : Word, fxmul a 0x00010000 = a ∧ fxdiv a 0x00010000 = some a) ∧
  (∀ a b : Word, fxmul a b = fxmul b a) ∧
  (∀ a b q : Word, s32 b ≠ 0 → a ≠ 0x80000000 → fxdiv (-a) b = some q → fxdiv a b = some (-q))

-- TMR

/-- 41_timer.md R131: TMR.INIT constructs the copy, whatever it held. -/
def Obligations.TmrInitConstructs : Prop :=
  HasOpcode 0x10 .tmrInit ∧ ChecksInst P_NTMR .tmrInit ∧
  ∀ (n : Nat) (h : n < P_NTMR) (s : State), exec (.tmrInit n) s =
    .next ((s.withTmr n h
      { valid := true, period := s.arg0, lastBucket := 0, startRef := 0, frozen := 0, running := false }).completed 0 0)

/-- R132: TMR.DUE fires when the bucket differs from the last one; period 0 never fires and changes nothing. -/
def Obligations.TmrDueFires : Prop :=
  HasOpcode 0x11 .tmrDue ∧ ChecksInst P_NTMR .tmrDue ∧ ChecksConfigured .tmr P_NTMR .tmrDue ∧
  ∀ (n : Nat) (h : n < P_NTMR) (s : State), s.tmr[n].valid = true →
    (s.tmr[n].period = 0 → exec (.tmrDue n) s = .next (s.completed 0 0)) ∧
    (s.tmr[n].period ≠ 0 → ∀ bucket : Nat, bucket = s.arg0.toNat / s.tmr[n].period.toNat →
      exec (.tmrDue n) s =
        .next ((s.withTmr n h { s.tmr[n] with lastBucket := BitVec.ofNat 32 bucket }).completed
          (if bucket ≠ s.tmr[n].lastBucket.toNat then 1 else 0) 0))

/-- R133, R134: SETP writes the period alone; START writes the reference and runs the stopwatch. -/
def Obligations.TmrSetpAndStart : Prop :=
  HasOpcode 0x12 .tmrSetp ∧ ChecksInst P_NTMR .tmrSetp ∧ ChecksConfigured .tmr P_NTMR .tmrSetp ∧
  HasOpcode 0x13 .tmrStart ∧ ChecksInst P_NTMR .tmrStart ∧ ChecksConfigured .tmr P_NTMR .tmrStart ∧
  ∀ (n : Nat) (h : n < P_NTMR) (s : State), s.tmr[n].valid = true →
    exec (.tmrSetp n) s = .next ((s.withTmr n h { s.tmr[n] with period := s.arg0 }).completed 0 0) ∧
    exec (.tmrStart n) s = .next ((s.withTmr n h { s.tmr[n] with startRef := s.arg0, running := true }).completed 0 0)

/-- R135, R136: STOP freezes the elapsed time of a running stopwatch; ELAP returns it; differences are modulo 2^32. -/
def Obligations.TmrStopAndElap : Prop :=
  HasOpcode 0x14 .tmrStop ∧ ChecksInst P_NTMR .tmrStop ∧ ChecksConfigured .tmr P_NTMR .tmrStop ∧
  HasOpcode 0x15 .tmrElap ∧ ChecksInst P_NTMR .tmrElap ∧ ChecksConfigured .tmr P_NTMR .tmrElap ∧
  ∀ (n : Nat) (h : n < P_NTMR) (s : State), s.tmr[n].valid = true →
    (s.tmr[n].running = true →
      exec (.tmrStop n) s =
        .next ((s.withTmr n h
          { s.tmr[n] with frozen := s.arg0 - s.tmr[n].startRef, running := false }).completed 0 0) ∧
      exec (.tmrElap n) s = .next (s.completed (s.arg0 - s.tmr[n].startRef) 0)) ∧
    (s.tmr[n].running = false →
      exec (.tmrStop n) s = .next (s.completed 0 0) ∧
      exec (.tmrElap n) s = .next (s.completed s.tmr[n].frozen 0))

/-- R137: TMR.RD returns the field its selector names, configured or not; any other selector raises E_ARG. -/
def Obligations.TmrRdReadsFields : Prop :=
  HasOpcode 0x1F .tmrRd ∧ ChecksInst P_NTMR .tmrRd ∧
  ∀ (n : Nat) (h : n < P_NTMR) (s : State),
    (s.arg0 = 0 → exec (.tmrRd n) s = .next (s.completed (if s.tmr[n].valid then 1 else 0) 0)) ∧
    (s.arg0 = 1 → exec (.tmrRd n) s = .next (s.completed s.tmr[n].period 0)) ∧
    (s.arg0 = 2 → exec (.tmrRd n) s = .next (s.completed s.tmr[n].lastBucket 0)) ∧
    (s.arg0 = 3 → exec (.tmrRd n) s = .next (s.completed s.tmr[n].startRef 0)) ∧
    (s.arg0 = 4 → exec (.tmrRd n) s = .next (s.completed s.tmr[n].frozen 0)) ∧
    (s.arg0 = 5 → exec (.tmrRd n) s = .next (s.completed (if s.tmr[n].running then 1 else 0) 0)) ∧
    (5 < s.arg0.toNat → exec (.tmrRd n) s = .next (s.faulted .eArg))

/-- R138 item 1: polls of a running timer answer 1 exactly where the bucket differs from the preceding poll's, and, at
nondecreasing times, at most once for each bucket. -/
def Obligations.TmrFiresOncePerBucket : Prop :=
  ∀ (n : Nat) (h : n < P_NTMR) (s : State) (times : List Word),
    s.tmr[n].valid = true → s.tmr[n].period ≠ 0 →
    (∃ t, withArgs0 (.tmrDue n) times s =
      some (t, fires s.tmr[n].period.toNat s.tmr[n].lastBucket.toNat times)) ∧
    (List.Pairwise (fun a b : Word => a.toNat ≤ b.toNat) times → ∀ bucket : Nat,
      ((times.zip (fires s.tmr[n].period.toNat s.tmr[n].lastBucket.toNat times)).filter
        (fun p => decide (p.1.toNat / s.tmr[n].period.toNat = bucket) && p.2 == 1)).length ≤ 1)

-- IIR

/-- 42_iir.md R151: IIR.INIT checks the mode, then converts the cutoff (whatever P_TCF is), then constructs the filter. -/
def Obligations.IirInitConstructs : Prop :=
  HasOpcode 0x20 .iirInit ∧ ChecksInst P_NIIR .iirInit ∧
  ∀ (n : Nat) (h : n < P_NIIR) (s : State),
    (s.arg0 = 0 → exec (.iirInit n) s =
      .next ((f2x (P_TCF s.arg1 s.arg2)).elim (s.faulted .eFrange) fun tc =>
        (s.withIir n h { valid := true, mode := .lowpass, tc := tc, lp := s.arg3, out := s.arg3 }).completed 0 0)) ∧
    (s.arg0 = 1 → exec (.iirInit n) s =
      .next ((f2x (P_TCF s.arg1 s.arg2)).elim (s.faulted .eFrange) fun tc =>
        (s.withIir n h { valid := true, mode := .highpass, tc := tc, lp := s.arg3, out := 0 }).completed 0 0)) ∧
    (1 < s.arg0.toNat → exec (.iirInit n) s = .next (s.faulted .eArg))

/-- R152: IIR.INITTC takes any time constant; a mode above 1 raises E_ARG. -/
def Obligations.IirInittcConstructs : Prop :=
  HasOpcode 0x21 .iirInittc ∧ ChecksInst P_NIIR .iirInittc ∧
  ∀ (n : Nat) (h : n < P_NIIR) (s : State),
    (s.arg0 = 0 → exec (.iirInittc n) s =
      .next ((s.withIir n h
        { valid := true, mode := .lowpass, tc := s.arg1, lp := s.arg3, out := s.arg3 }).completed 0 0)) ∧
    (s.arg0 = 1 → exec (.iirInittc n) s =
      .next ((s.withIir n h
        { valid := true, mode := .highpass, tc := s.arg1, lp := s.arg3, out := 0 }).completed 0 0)) ∧
    (1 < s.arg0.toNat → exec (.iirInittc n) s = .next (s.faulted .eArg))

/-- R153: IIR.STEP adds the floored product of the wrapped difference and the time constant to the estimate; HIGHPASS
answers the input less the UPDATED estimate. -/
def Obligations.IirStepFilters : Prop :=
  HasOpcode 0x22 .iirStep ∧ ChecksInst P_NIIR .iirStep ∧ ChecksConfigured .iir P_NIIR .iirStep ∧
  ∀ (n : Nat) (h : n < P_NIIR) (s : State) (lp : Word), s.iir[n].valid = true →
    lp = s.iir[n].lp + BitVec.ofInt 32 (((s.arg0 - s.iir[n].lp).toInt * s.iir[n].tc.toInt).fdiv (2 ^ 16)) →
    (s.iir[n].mode = .lowpass → exec (.iirStep n) s =
      .next ((s.withIir n h { s.iir[n] with lp := lp, out := lp }).completed lp 0)) ∧
    (s.iir[n].mode = .highpass → exec (.iirStep n) s =
      .next ((s.withIir n h { s.iir[n] with lp := lp, out := s.arg0 - lp }).completed (s.arg0 - lp) 0))

/-- R154: IIR.RD. -/
def Obligations.IirRdReadsFields : Prop :=
  HasOpcode 0x2F .iirRd ∧ ChecksInst P_NIIR .iirRd ∧
  ∀ (n : Nat) (h : n < P_NIIR) (s : State),
    (s.arg0 = 0 → exec (.iirRd n) s = .next (s.completed (if s.iir[n].valid then 1 else 0) 0)) ∧
    (s.arg0 = 1 → exec (.iirRd n) s = .next (s.completed (if s.iir[n].mode = .highpass then 1 else 0) 0)) ∧
    (s.arg0 = 2 → exec (.iirRd n) s = .next (s.completed s.iir[n].tc 0)) ∧
    (s.arg0 = 3 → exec (.iirRd n) s = .next (s.completed s.iir[n].lp 0)) ∧
    (s.arg0 = 4 → exec (.iirRd n) s = .next (s.completed s.iir[n].out 0)) ∧
    (4 < s.arg0.toNat → exec (.iirRd n) s = .next (s.faulted .eArg))

/-- R155 item 1: a LOWPASS and a HIGHPASS copy with equal time constant and estimate, fed the same inputs, answer values
that add up to each input, exactly. -/
def Obligations.IirHighPassComplement : Prop :=
  ∀ (a b : Nat) (ha : a < P_NIIR) (hb : b < P_NIIR) (s : State) (inputs : List Word),
    s.iir[a].valid = true → s.iir[b].valid = true → s.iir[a].mode = .lowpass → s.iir[b].mode = .highpass →
    s.iir[a].tc = s.iir[b].tc → s.iir[a].lp = s.iir[b].lp →
    ∃ t u lows highs, withArgs0 (.iirStep a) inputs s = some (t, lows) ∧
      withArgs0 (.iirStep b) inputs s = some (u, highs) ∧ List.zipWith (· + ·) lows highs = inputs

/-- R155 items 2 and 4: with 0 ≤ tc < 1 and no wrap in the difference, the estimate moves toward the input and never
passes it; with tc = 1 one step makes it the input. -/
def Obligations.IirNoOvershoot : Prop :=
  ∀ (n : Nat) (h : n < P_NIIR) (s : State), s.iir[n].valid = true →
    (0 ≤ s32 s.iir[n].tc → s32 s.iir[n].tc < 2 ^ 16 → |s32 s.arg0 - s32 s.iir[n].lp| < 2 ^ 31 →
      ∃ t, exec (.iirStep n) s = .next t ∧
        (s32 s.iir[n].lp ≤ s32 s.arg0 → s32 s.iir[n].lp ≤ s32 t.iir[n].lp ∧ s32 t.iir[n].lp ≤ s32 s.arg0) ∧
        (s32 s.arg0 ≤ s32 s.iir[n].lp → s32 s.arg0 ≤ s32 t.iir[n].lp ∧ s32 t.iir[n].lp ≤ s32 s.iir[n].lp)) ∧
    (s32 s.iir[n].tc = 2 ^ 16 → ∃ t, exec (.iirStep n) s = .next t ∧ t.iir[n].lp = s.arg0)

/-- R155 item 3: under a constant input and 0 < tc < 1, an estimate at or above the input reaches it exactly within as many
steps as it is raw units away; one below it stops, within as many steps, where the shortfall times tc is below 2^16,
and stays there. -/
def Obligations.IirSettles : Prop :=
  ∀ (n : Nat) (h : n < P_NIIR) (s : State), s.iir[n].valid = true →
    0 < s32 s.iir[n].tc → s32 s.iir[n].tc < 2 ^ 16 → |s32 s.arg0 - s32 s.iir[n].lp| < 2 ^ 31 →
    (s32 s.arg0 ≤ s32 s.iir[n].lp → ∃ t, repeated (.iirStep n) (s32 s.iir[n].lp - s32 s.arg0).toNat s = some t ∧
      t.iir[n].lp = s.arg0) ∧
    (s32 s.iir[n].lp ≤ s32 s.arg0 → ∃ t, repeated (.iirStep n) (s32 s.arg0 - s32 s.iir[n].lp).toNat s = some t ∧
      s32 t.iir[n].lp ≤ s32 s.arg0 ∧ (s32 s.arg0 - s32 t.iir[n].lp) * s32 s.iir[n].tc < 2 ^ 16) ∧
    (s32 s.iir[n].lp ≤ s32 s.arg0 → (s32 s.arg0 - s32 s.iir[n].lp) * s32 s.iir[n].tc < 2 ^ 16 →
      ∃ t, exec (.iirStep n) s = .next t ∧ t.iir[n].lp = s.iir[n].lp)

-- MAV

/-- 43_mav.md R171: MAV.INIT fills the window and constructs the copy; slots from N up stay; N = 0 or N > P_MAXWIN raises
E_ARG. -/
def Obligations.MavInitConstructs : Prop :=
  HasOpcode 0x30 .mavInit ∧ ChecksInst P_NMAV .mavInit ∧
  ∀ (n : Nat) (h : n < P_NMAV) (s : State), s.Inv →
    (1 ≤ s.arg0.toNat → s.arg0.toNat ≤ 64 → ∃ (sum : Word64) (buf : SampleMemory),
      exec (.mavInit n) s =
        .next ((s.withMav n h
          { valid := true, win := s.arg0, cursor := 0, sum := sum, out := s.arg1, buf := buf }).completed 0 0) ∧
      sum.toInt = s.arg0.toNat * s.arg1.toInt ∧
      (∀ k, k < 64 → bufRead buf k = if k < s.arg0.toNat then s.arg1 else bufRead s.mav[n].buf k)) ∧
    (s.arg0.toNat = 0 ∨ 64 < s.arg0.toNat → exec (.mavInit n) s = .next (s.faulted .eArg))

/-- R172: MAV.STEP evicts the sample at the cursor, keeps the exact sum, advances the cursor modulo N and answers the sum
over N, truncated toward zero; no other slot changes. -/
def Obligations.MavStepAverages : Prop :=
  HasOpcode 0x31 .mavStep ∧ ChecksInst P_NMAV .mavStep ∧ ChecksConfigured .mav P_NMAV .mavStep ∧
  ∀ (n : Nat) (h : n < P_NMAV) (s : State), s.Inv → s.mav[n].valid = true →
    ∃ (sum : Word64) (out : Word) (buf : SampleMemory),
      exec (.mavStep n) s = .next ((s.withMav n h { s.mav[n] with
          sum := sum, out := out, buf := buf,
          cursor := BitVec.ofNat 32 ((s.mav[n].cursor.toNat + 1) % s.mav[n].win.toNat) }).completed out 0) ∧
      sum.toInt = s.mav[n].sum.toInt - (bufRead s.mav[n].buf s.mav[n].cursor.toNat).toInt + s.arg0.toInt ∧
      out.toInt = truncRat ((sum.toInt : ℚ) / s.mav[n].win.toNat) ∧
      (∀ k, k < 64 → bufRead buf k = if k = s.mav[n].cursor.toNat then s.arg0 else bufRead s.mav[n].buf k)

/-- R173: MAV.RD, with the 64-bit sum in two words and the buffer slots from selector 0x100. -/
def Obligations.MavRdReadsFields : Prop :=
  HasOpcode 0x3F .mavRd ∧ ChecksInst P_NMAV .mavRd ∧
  ∀ (n : Nat) (h : n < P_NMAV) (s : State),
    (s.arg0 = 0 → exec (.mavRd n) s = .next (s.completed (if s.mav[n].valid then 1 else 0) 0)) ∧
    (s.arg0 = 1 → exec (.mavRd n) s = .next (s.completed s.mav[n].win 0)) ∧
    (s.arg0 = 2 → exec (.mavRd n) s = .next (s.completed s.mav[n].cursor 0)) ∧
    (s.arg0 = 3 → ∃ lo hi : Word, exec (.mavRd n) s = .next (s.completed lo hi) ∧
      s.mav[n].sum.toNat = hi.toNat * 2 ^ 32 + lo.toNat) ∧
    (s.arg0 = 4 → exec (.mavRd n) s = .next (s.completed s.mav[n].out 0)) ∧
    (∀ k, k < 64 → s.arg0.toNat = 0x100 + k → exec (.mavRd n) s = .next (s.completed (bufRead s.mav[n].buf k) 0)) ∧
    (4 < s.arg0.toNat → (s.arg0.toNat < 0x100 ∨ 0x140 ≤ s.arg0.toNat) →
      exec (.mavRd n) s = .next (s.faulted .eArg))

/-- R174 items 2 and 4: after MAV.INIT with window N and a fill, and then any inputs, the output is the mean, truncated
toward zero, of the last N of the fill values followed by the inputs, and the cursor is the number of steps modulo N. -/
def Obligations.MavMeanOfLastWindow : Prop :=
  ∀ (n : Nat) (h : n < P_NMAV) (s : State) (N : Nat) (inputs : List Word),
    s.Inv → s.arg0.toNat = N → 1 ≤ N → N ≤ 64 →
    ∃ t u outs, exec (.mavInit n) s = .next t ∧ withArgs0 (.mavStep n) inputs t = some (u, outs) ∧
      u.mav[n].out.toInt =
        ((((List.replicate N s.arg1 ++ inputs).drop inputs.length).map BitVec.toInt).sum).tdiv N ∧
      u.mav[n].cursor.toNat = inputs.length % N

-- RMP

/-- 44_ramp.md R191: RMP.INIT checks the two conversions, the signs, the tick and the step, in that order, and constructs the
ramp. -/
def Obligations.RmpInitConstructs : Prop :=
  HasOpcode 0x40 .rmpInit ∧ ChecksInst P_NRMP .rmpInit ∧
  ∀ (n : Nat) (h : n < P_NRMP) (s : State),
    ((f2x s.arg1 = none ∨ f2x s.arg2 = none) → exec (.rmpInit n) s = .next (s.faulted .eFrange)) ∧
    (∀ i d : Word, f2x s.arg1 = some i → f2x s.arg2 = some d → ∀ tick : Nat, tick = s.arg0.toNat * 65536 / 1000 →
      ((i.toInt < 0 ∨ d.toInt < 0 ∨ 2 ^ 31 - 1 < tick ∨
          2 ^ 31 - 1 < (max i.toInt d.toInt * tick).fdiv (2 ^ 16)) →
        exec (.rmpInit n) s = .next (s.faulted .eArg)) ∧
      (0 ≤ i.toInt → 0 ≤ d.toInt → tick ≤ 2 ^ 31 - 1 → (max i.toInt d.toInt * tick).fdiv (2 ^ 16) ≤ 2 ^ 31 - 1 →
        exec (.rmpInit n) s =
          .next ((s.withRmp n h
            { valid := true, present := 0, target := 0, inc := i, dec := d, tick := BitVec.ofNat 32 tick }).completed 0 0)))

/-- R192, R194: RMP.DELTA answers the rate in use and changes no state. -/
def Obligations.RmpDeltaRate : Prop :=
  HasOpcode 0x42 .rmpDelta ∧ ChecksInst P_NRMP .rmpDelta ∧ ChecksConfigured .rmp P_NRMP .rmpDelta ∧
  ∀ (n : Nat) (h : n < P_NRMP) (s : State) (p t : Int), s.rmp[n].valid = true →
    p = s.rmp[n].present.toInt → t = s.rmp[n].target.toInt →
    (p = t → exec (.rmpDelta n) s = .next (s.completed 0 0)) ∧
    (p ≠ t → t = 0 → exec (.rmpDelta n) s = .next (s.completed s.rmp[n].dec 0)) ∧
    (0 < t → p < t → exec (.rmpDelta n) s = .next (s.completed s.rmp[n].inc 0)) ∧
    (0 < t → t < p → exec (.rmpDelta n) s = .next (s.completed s.rmp[n].dec 0)) ∧
    (t < 0 → t < p → exec (.rmpDelta n) s = .next (s.completed s.rmp[n].inc 0)) ∧
    (t < 0 → p < t → exec (.rmpDelta n) s = .next (s.completed s.rmp[n].dec 0))

/-- R193, R196: RMP.SETT writes the target alone; RMP.CONV answers whether present equals target. -/
def Obligations.RmpSettAndConv : Prop :=
  HasOpcode 0x41 .rmpSett ∧ ChecksInst P_NRMP .rmpSett ∧ ChecksConfigured .rmp P_NRMP .rmpSett ∧
  HasOpcode 0x44 .rmpConv ∧ ChecksInst P_NRMP .rmpConv ∧ ChecksConfigured .rmp P_NRMP .rmpConv ∧
  ∀ (n : Nat) (h : n < P_NRMP) (s : State), s.rmp[n].valid = true →
    exec (.rmpSett n) s = .next ((s.withRmp n h { s.rmp[n] with target := s.arg0 }).completed 0 0) ∧
    exec (.rmpConv n) s = .next (s.completed (if s.rmp[n].present = s.rmp[n].target then 1 else 0) 0)

/-- R195: RMP.UPD moves `present` toward the target by the exact step and clamps onto it; the result lies between the
old value and the target. -/
def Obligations.RmpUpdSteps : Prop :=
  HasOpcode 0x43 .rmpUpd ∧ ChecksInst P_NRMP .rmpUpd ∧ ChecksConfigured .rmp P_NRMP .rmpUpd ∧
  ∀ (n : Nat) (h : n < P_NRMP) (s : State) (p t step : Int), s.Inv → s.rmp[n].valid = true →
    p = s.rmp[n].present.toInt → t = s.rmp[n].target.toInt →
    step = ((rdelta s.rmp[n]).toInt * s.rmp[n].tick.toInt).fdiv (2 ^ 16) →
    0 ≤ step ∧ step ≤ 2 ^ 31 - 1 ∧
    ∃ q : Word, exec (.rmpUpd n) s =
        .next ((s.withRmp n h { s.rmp[n] with present := q }).completed q 0) ∧
      (p < t → q.toInt = min (p + step) t) ∧ (t < p → q.toInt = max (p - step) t) ∧ (p = t → q.toInt = p) ∧
      min p t ≤ q.toInt ∧ q.toInt ≤ max p t

/-- R197: RMP.RD. -/
def Obligations.RmpRdReadsFields : Prop :=
  HasOpcode 0x4F .rmpRd ∧ ChecksInst P_NRMP .rmpRd ∧
  ∀ (n : Nat) (h : n < P_NRMP) (s : State),
    (s.arg0 = 0 → exec (.rmpRd n) s = .next (s.completed (if s.rmp[n].valid then 1 else 0) 0)) ∧
    (s.arg0 = 1 → exec (.rmpRd n) s = .next (s.completed s.rmp[n].present 0)) ∧
    (s.arg0 = 2 → exec (.rmpRd n) s = .next (s.completed s.rmp[n].target 0)) ∧
    (s.arg0 = 3 → exec (.rmpRd n) s = .next (s.completed s.rmp[n].inc 0)) ∧
    (s.arg0 = 4 → exec (.rmpRd n) s = .next (s.completed s.rmp[n].dec 0)) ∧
    (s.arg0 = 5 → exec (.rmpRd n) s = .next (s.completed s.rmp[n].tick 0)) ∧
    (5 < s.arg0.toNat → exec (.rmpRd n) s = .next (s.faulted .eArg))

/-- R198 item 3: a ramp whose step S is above 0 converges after exactly ceil(|target − present| / S) updates and not
before; one whose step is 0 never moves. -/
def Obligations.RampConvergesInCeil : Prop :=
  ∀ (n : Nat) (h : n < P_NRMP) (s : State) (p t S : Int), s.Inv → s.rmp[n].valid = true →
    p = s.rmp[n].present.toInt → t = s.rmp[n].target.toInt →
    S = ((rdelta s.rmp[n]).toInt * s.rmp[n].tick.toInt).fdiv (2 ^ 16) →
    (0 < S →
      (∃ u, repeated (.rmpUpd n) ⌈(|t - p| : ℚ) / S⌉.toNat s = some u ∧ u.rmp[n].present = s.rmp[n].target) ∧
      (∀ k, k < ⌈(|t - p| : ℚ) / S⌉.toNat →
        ∃ u, repeated (.rmpUpd n) k s = some u ∧ u.rmp[n].present ≠ s.rmp[n].target)) ∧
    (S = 0 → ∀ k, ∃ u, repeated (.rmpUpd n) k s = some u ∧ u.rmp[n].present = s.rmp[n].present)

-- SYS

/-- 45_sys.md R221, R222: SYS.NOP clears CODE and the results and keeps STICKY; SYS.CLRST clears STICKY too; a word of
either with INST ≠ 0 or RSV ≠ 0 raises E_ILLEGAL and clears nothing. -/
def Obligations.SysNopAndClrst : Prop :=
  decode 0x000000F0#32 = .ok .sysNop ∧ decode 0x000000F1#32 = .ok .sysClrst ∧
  (∀ s : State, exec .sysNop s = .next (s.completed 0 0)) ∧
  (∀ s : State, ∃ t, exec .sysClrst s = .next t ∧ t = State.completed { s with sticky := 0 } 0 0 ∧ t.statusWord = 0) ∧
  (∀ (s : State) (n : Nat), 0 < n → n < 2 ^ 24 →
    performCommand (BitVec.ofNat 32 (n * 256 + 0xF0)) s = .next (s.faulted .eIllegal) ∧
    performCommand (BitVec.ofNat 32 (n * 256 + 0xF1)) s = .next (s.faulted .eIllegal))

-- The parameters as arguments

/-- 00_scope.md R6: this block's parameter values are legal, and its commands, its step and its reset state are those of
the machine that takes the parameters as arguments, at these values. -/
def Obligations.BlockIsAnInstance : Prop :=
  block.Legal ∧ block = { nTmr := 4, nIir := 4, nMav := 4, nRmp := 4, maxWin := 64 } ∧
  (∀ (i : Instr) (s : State), exec i s = execFor i s) ∧ (∀ s : State, step s = stepFor s) ∧
  State.reset = State.resetWith block

/-- R6, 30_encoding.md R83: whatever the instance counts, an INST value at or above the unit's count raises E_INST, one
below it E_UNCONF where the copy must be configured and is not, and neither code otherwise. -/
def Obligations.CountsDecideInst : Prop :=
  ∀ (P : Params) (i : Instr) (s : State P) (count : Nat), i.unit.count P = some count →
    (count ≤ i.inst → execFor i s = .next (s.faulted .eInst)) ∧
    (i.inst < count → i.needsNoConfig = false → s.copyValid i.unit i.inst = false →
      execFor i s = .next (s.faulted .eUnconf)) ∧
    (i.inst < count → (i.needsNoConfig = true ∨ s.copyValid i.unit i.inst = true) →
      ∃ t, execFor i s = .next t ∧ t.code ≠ .eInst ∧ t.code ≠ .eUnconf)

/-- R6, 43_mav.md R171, R173: whatever the buffer capacity P_MAXWIN, MAV.INIT takes the windows from 1 to it and MAV.RD
the slots below it, and no others. -/
def Obligations.CapacityBoundsWindow : Prop :=
  ∀ (P : Params) (n : Nat) (h : n < P.nMav) (s : State P),
    (1 ≤ s.arg0.toNat → s.arg0.toNat ≤ P.maxWin → ∃ t, execFor (.mavInit n) s = .next t ∧ t.code = .ok ∧
      t.mav[n].valid = true ∧ t.mav[n].win = s.arg0) ∧
    (s.arg0.toNat = 0 ∨ P.maxWin < s.arg0.toNat → execFor (.mavInit n) s = .next (s.faulted .eArg)) ∧
    (∀ k, k < P.maxWin → s.arg0.toNat = 0x100 + k →
      execFor (.mavRd n) s = .next (s.completed (bufRead s.mav[n].buf k) 0)) ∧
    (0x100 + P.maxWin ≤ s.arg0.toNat → execFor (.mavRd n) s = .next (s.faulted .eArg))

/-- 10_state.md R25, R26: PARAM0 and PARAM1 read the block's own parameters, and writes to them are ignored. -/
def Obligations.ParamsReadBack : Prop :=
  (∀ (P : Params) (s : State P) (later : List HostOp), P.Legal →
    (s.pending = .read 0x24 4 :: later → ∃ w : Word,
      stepFor s = .next { s with pending := later, readLog := s.readLog ++ [w] } ∧
      w.toNat % 256 = P.nTmr ∧ w.toNat / 2 ^ 8 % 256 = P.nIir ∧ w.toNat / 2 ^ 16 % 256 = P.nMav ∧
      w.toNat / 2 ^ 24 = P.nRmp) ∧
    (s.pending = .read 0x28 4 :: later → ∃ w : Word,
      stepFor s = .next { s with pending := later, readLog := s.readLog ++ [w] } ∧
      w.toNat % 2 ^ 16 = P.maxWin ∧ w.toNat / 2 ^ 16 = 0) ∧
    (∀ v : Word, (s.pending = .write 0x24 4 v :: later ∨ s.pending = .write 0x28 4 v :: later) →
      stepFor s = .next { s with pending := later })) ∧
  State.reset.readReg .param0 = 0x04040404 ∧ State.reset.readReg .param1 = 0x00000040

/-- R6, 10_state.md R28, R29, R31, R33: the reset state of a block with any legal parameters meets the invariant, and
every step of it keeps the invariant. -/
def Obligations.AnyBlockKeepsInvariant : Prop :=
  ∀ P : Params, P.Legal → (State.resetWith P).Inv ∧
    ∀ s s' : State P, s.Inv → stepFor s = .next s' → s'.Inv
end

