-- ==== Sys2Proof/Laws/Numbers.lean ====
section
/-! SUPPORT. The arithmetic primitives of spec 00_scope.md R10 and the fix functions of 40_fx.md, reduced to integers:
bounds, narrowing, and when narrowing loses nothing. -/

namespace Sys2Proof.Machine

theorem s32_lower (w : Word) : -2 ^ 31 ≤ s32 w := by
  have := BitVec.le_toInt w; simpa [s32] using this

theorem s32_upper (w : Word) : s32 w ≤ 2 ^ 31 - 1 := by
  have := BitVec.toInt_lt (x := w); simp only [s32]; omega

theorem s64_lower (w : Word64) : -2 ^ 63 ≤ s64 w := by
  have := BitVec.le_toInt w; simpa [s64] using this

theorem s64_upper (w : Word64) : s64 w ≤ 2 ^ 63 - 1 := by
  have := BitVec.toInt_lt (x := w); simp only [s64]; omega

theorem u32_lt (w : Word) : u32 w < 2 ^ 32 := w.isLt

@[simp] theorem s32_zero : s32 0 = 0 := by decide
@[simp] theorem u32_zero : u32 0 = 0 := by decide
@[simp] theorem s64_zero : s64 0 = 0 := by decide

@[simp] theorem wrap32_s32 (w : Word) : wrap32 (s32 w) = w := BitVec.ofInt_toInt

/-- Narrowing keeps a value that fits 32 bits. -/
theorem s32_wrap32 {v : Int} (lo : -2 ^ 31 ≤ v) (hi : v ≤ 2 ^ 31 - 1) : s32 (wrap32 v) = v := by
  rw [s32, wrap32, BitVec.toInt_ofInt]
  apply Int.bmod_eq_of_le <;> omega

/-- Narrowing keeps a value that fits 64 bits. -/
theorem s64_wrap64 {v : Int} (lo : -2 ^ 63 ≤ v) (hi : v ≤ 2 ^ 63 - 1) : s64 (wrap64 v) = v := by
  rw [s64, wrap64, BitVec.toInt_ofInt]
  apply Int.bmod_eq_of_le <;> omega

theorem s32_inj {a b : Word} : s32 a = s32 b ↔ a = b := BitVec.toInt_inj

theorem u32_inj {a b : Word} : u32 a = u32 b ↔ a = b := BitVec.toNat_inj

@[simp] theorem ofU32_u32 (w : Word) : ofU32 (u32 w) = w := by simp [ofU32, u32]

/-- An unsigned value that fits 32 bits is kept. -/
theorem u32_ofU32 {v : Nat} (h : v < 2 ^ 32) : u32 (ofU32 v) = v := by
  simpa [u32, ofU32] using h

theorem wrap32_add (a b : Int) : wrap32 (a + b) = wrap32 a + wrap32 b := BitVec.ofInt_add a b

theorem wrap32_neg (a : Int) : wrap32 (-a) = -wrap32 a := BitVec.ofInt_neg

theorem wrap32_sub (a b : Int) : wrap32 (a - b) = wrap32 a - wrap32 b := by
  rw [Int.sub_eq_add_neg, wrap32_add, wrap32_neg, BitVec.sub_eq_add_neg]

/-- R107 is addition of patterns. -/
theorem fxadd_eq (a b : Word) : fxadd a b = a + b := by simp [fxadd, wrap32_add]

/-- R108 is subtraction of patterns. -/
theorem fxsub_eq (a b : Word) : fxsub a b = a - b := by simp [fxsub, wrap32_sub]

/-- R12: a pattern is finite when its exponent field is not all ones. -/
theorem f32finite_iff (w : Word) : f32finite w = true ↔ f32exp w ≠ 255 := by
  unfold f32finite f32class
  by_cases h : f32exp w = 255
  · by_cases h' : f32frac w = 0 <;> simp [h, h']
  · by_cases h' : f32exp w = 0
    · by_cases h'' : f32frac w = 0 <;> simp [h', h'']
    · simp [h, h']

/-- `asr` is the floor of the quotient. -/
theorem asr_bounds (v : Int) (n : Nat) : (2 ^ n : Nat) * asr v n ≤ v ∧ v < (2 ^ n : Nat) * asr v n + (2 ^ n : Nat) := by
  have hp : (0 : Int) < (2 ^ n : Nat) := by exact_mod_cast Nat.two_pow_pos n
  have h := Int.mul_ediv_add_emod v (2 ^ n : Nat)
  have h0 := Int.emod_nonneg v (ne_of_gt hp)
  have h1 := Int.emod_lt_of_pos v hp
  unfold asr; constructor <;> omega

end Sys2Proof.Machine
end

