-- ==== Sys2Proof/Laws/State.lean ====
section
/-! SUPPORT. One lemma per field for each named update of `State`, so that no later proof unfolds a record update. -/

namespace Sys2Proof.Machine

open Sys2Proof.Config

section raise

variable {P : Params} (s : State P)

@[simp] theorem State.raise_arg0 (c : Code) : (s.raise c).arg0 = s.arg0 := rfl
@[simp] theorem State.raise_arg1 (c : Code) : (s.raise c).arg1 = s.arg1 := rfl
@[simp] theorem State.raise_arg2 (c : Code) : (s.raise c).arg2 = s.arg2 := rfl
@[simp] theorem State.raise_arg3 (c : Code) : (s.raise c).arg3 = s.arg3 := rfl
@[simp] theorem State.raise_res0 (c : Code) : (s.raise c).res0 = s.res0 := rfl
@[simp] theorem State.raise_res1 (c : Code) : (s.raise c).res1 = s.res1 := rfl
@[simp] theorem State.raise_code (c : Code) : (s.raise c).code = c := rfl
@[simp] theorem State.raise_sticky (c : Code) : (s.raise c).sticky = s.sticky ||| c.stickyBit := rfl
@[simp] theorem State.raise_tmr (c : Code) : (s.raise c).tmr = s.tmr := rfl
@[simp] theorem State.raise_iir (c : Code) : (s.raise c).iir = s.iir := rfl
@[simp] theorem State.raise_mav (c : Code) : (s.raise c).mav = s.mav := rfl
@[simp] theorem State.raise_rmp (c : Code) : (s.raise c).rmp = s.rmp := rfl
@[simp] theorem State.raise_pending (c : Code) : (s.raise c).pending = s.pending := rfl
@[simp] theorem State.raise_readLog (c : Code) : (s.raise c).readLog = s.readLog := rfl

end raise

section complete

variable {P : Params} (s : State P)

@[simp] theorem State.complete_arg0 (r0 r1 : Word) : (s.complete r0 r1).arg0 = s.arg0 := rfl
@[simp] theorem State.complete_arg1 (r0 r1 : Word) : (s.complete r0 r1).arg1 = s.arg1 := rfl
@[simp] theorem State.complete_arg2 (r0 r1 : Word) : (s.complete r0 r1).arg2 = s.arg2 := rfl
@[simp] theorem State.complete_arg3 (r0 r1 : Word) : (s.complete r0 r1).arg3 = s.arg3 := rfl
@[simp] theorem State.complete_res0 (r0 r1 : Word) : (s.complete r0 r1).res0 = r0 := rfl
@[simp] theorem State.complete_res1 (r0 r1 : Word) : (s.complete r0 r1).res1 = r1 := rfl
@[simp] theorem State.complete_code (r0 r1 : Word) : (s.complete r0 r1).code = .ok := rfl
@[simp] theorem State.complete_sticky (r0 r1 : Word) : (s.complete r0 r1).sticky = s.sticky := rfl
@[simp] theorem State.complete_tmr (r0 r1 : Word) : (s.complete r0 r1).tmr = s.tmr := rfl
@[simp] theorem State.complete_iir (r0 r1 : Word) : (s.complete r0 r1).iir = s.iir := rfl
@[simp] theorem State.complete_mav (r0 r1 : Word) : (s.complete r0 r1).mav = s.mav := rfl
@[simp] theorem State.complete_rmp (r0 r1 : Word) : (s.complete r0 r1).rmp = s.rmp := rfl
@[simp] theorem State.complete_pending (r0 r1 : Word) : (s.complete r0 r1).pending = s.pending := rfl
@[simp] theorem State.complete_readLog (r0 r1 : Word) : (s.complete r0 r1).readLog = s.readLog := rfl

end complete

section resetBlock

variable {P : Params} (s : State P)

@[simp] theorem State.resetBlock_arg0 : (s.resetBlock).arg0 = (State.resetWith P).arg0 := rfl
@[simp] theorem State.resetBlock_arg1 : (s.resetBlock).arg1 = (State.resetWith P).arg1 := rfl
@[simp] theorem State.resetBlock_arg2 : (s.resetBlock).arg2 = (State.resetWith P).arg2 := rfl
@[simp] theorem State.resetBlock_arg3 : (s.resetBlock).arg3 = (State.resetWith P).arg3 := rfl
@[simp] theorem State.resetBlock_res0 : (s.resetBlock).res0 = (State.resetWith P).res0 := rfl
@[simp] theorem State.resetBlock_res1 : (s.resetBlock).res1 = (State.resetWith P).res1 := rfl
@[simp] theorem State.resetBlock_code : (s.resetBlock).code = (State.resetWith P).code := rfl
@[simp] theorem State.resetBlock_sticky : (s.resetBlock).sticky = (State.resetWith P).sticky := rfl
@[simp] theorem State.resetBlock_tmr : (s.resetBlock).tmr = (State.resetWith P).tmr := rfl
@[simp] theorem State.resetBlock_iir : (s.resetBlock).iir = (State.resetWith P).iir := rfl
@[simp] theorem State.resetBlock_mav : (s.resetBlock).mav = (State.resetWith P).mav := rfl
@[simp] theorem State.resetBlock_rmp : (s.resetBlock).rmp = (State.resetWith P).rmp := rfl
@[simp] theorem State.resetBlock_pending : (s.resetBlock).pending = s.pending := rfl
@[simp] theorem State.resetBlock_readLog : (s.resetBlock).readLog = s.readLog := rfl

end resetBlock

section afterBusError

variable {P : Params} (s : State P)

@[simp] theorem State.afterBusError_arg0 : (s.afterBusError).arg0 = s.arg0 := rfl
@[simp] theorem State.afterBusError_arg1 : (s.afterBusError).arg1 = s.arg1 := rfl
@[simp] theorem State.afterBusError_arg2 : (s.afterBusError).arg2 = s.arg2 := rfl
@[simp] theorem State.afterBusError_arg3 : (s.afterBusError).arg3 = s.arg3 := rfl
@[simp] theorem State.afterBusError_res0 : (s.afterBusError).res0 = s.res0 := rfl
@[simp] theorem State.afterBusError_res1 : (s.afterBusError).res1 = s.res1 := rfl
@[simp] theorem State.afterBusError_code : (s.afterBusError).code = s.code := rfl
@[simp] theorem State.afterBusError_sticky : (s.afterBusError).sticky = s.sticky := rfl
@[simp] theorem State.afterBusError_tmr : (s.afterBusError).tmr = s.tmr := rfl
@[simp] theorem State.afterBusError_iir : (s.afterBusError).iir = s.iir := rfl
@[simp] theorem State.afterBusError_mav : (s.afterBusError).mav = s.mav := rfl
@[simp] theorem State.afterBusError_rmp : (s.afterBusError).rmp = s.rmp := rfl
@[simp] theorem State.afterBusError_pending : (s.afterBusError).pending = s.pending.tail := rfl
@[simp] theorem State.afterBusError_readLog : (s.afterBusError).readLog = s.readLog := rfl

end afterBusError

section withFetchWord

variable (s : State)

@[simp] theorem State.withFetchWord_arg0 (nbits w : Nat) : (s.withFetchWord nbits w).arg0 = s.arg0 := rfl
@[simp] theorem State.withFetchWord_arg1 (nbits w : Nat) : (s.withFetchWord nbits w).arg1 = s.arg1 := rfl
@[simp] theorem State.withFetchWord_arg2 (nbits w : Nat) : (s.withFetchWord nbits w).arg2 = s.arg2 := rfl
@[simp] theorem State.withFetchWord_arg3 (nbits w : Nat) : (s.withFetchWord nbits w).arg3 = s.arg3 := rfl
@[simp] theorem State.withFetchWord_res0 (nbits w : Nat) : (s.withFetchWord nbits w).res0 = s.res0 := rfl
@[simp] theorem State.withFetchWord_res1 (nbits w : Nat) : (s.withFetchWord nbits w).res1 = s.res1 := rfl
@[simp] theorem State.withFetchWord_code (nbits w : Nat) : (s.withFetchWord nbits w).code = s.code := rfl
@[simp] theorem State.withFetchWord_sticky (nbits w : Nat) : (s.withFetchWord nbits w).sticky = s.sticky := rfl
@[simp] theorem State.withFetchWord_tmr (nbits w : Nat) : (s.withFetchWord nbits w).tmr = s.tmr := rfl
@[simp] theorem State.withFetchWord_iir (nbits w : Nat) : (s.withFetchWord nbits w).iir = s.iir := rfl
@[simp] theorem State.withFetchWord_mav (nbits w : Nat) : (s.withFetchWord nbits w).mav = s.mav := rfl
@[simp] theorem State.withFetchWord_rmp (nbits w : Nat) : (s.withFetchWord nbits w).rmp = s.rmp := rfl
@[simp] theorem State.withFetchWord_pending (nbits w : Nat) : (s.withFetchWord nbits w).pending = commandFirst nbits w s.pending := rfl
@[simp] theorem State.withFetchWord_readLog (nbits w : Nat) : (s.withFetchWord nbits w).readLog = s.readLog := rfl

end withFetchWord

end Sys2Proof.Machine
end

