-- ==== Sys2Proof/Laws/Ops.lean ====
section
/-! SUPPORT. One lemma for each shared operation of Machine/Ops.lean that says everything it can do: the selection of a
copy, the commands of a unit, and the sample memory. -/

namespace Sys2Proof.Machine

open Sys2Proof.Config

section Select

variable {α : Type} {N n : Nat} {copies : Vector α N} {ready : α → Bool} {body : α → Verdict α}

theorem selectCopy_inst (h : N ≤ n) : selectCopy copies ready n body = .raise .eInst := by
  simp [selectCopy, Nat.not_lt.mpr h]

theorem selectCopy_unconf (h : n < N) (hr : ready copies[n] = false) :
    selectCopy copies ready n body = .raise .eUnconf := by
  simp [selectCopy, h, hr]

theorem selectCopy_raise (h : n < N) (hr : ready copies[n] = true) {c : Code} (hb : body copies[n] = .raise c) :
    selectCopy copies ready n body = .raise c := by
  simp [selectCopy, h, hr, hb]

theorem selectCopy_done (h : n < N) (hr : ready copies[n] = true) {new : α} {r0 r1 : Word}
    (hb : body copies[n] = .done new r0 r1) :
    selectCopy copies ready n body = .done (copies.set n new) r0 r1 := by
  simp [selectCopy, h, hr, hb]

/-- All that a selection can answer. -/
theorem selectCopy_cases (copies : Vector α N) (ready : α → Bool) (n : Nat) (body : α → Verdict α) :
    (N ≤ n ∧ selectCopy copies ready n body = .raise .eInst) ∨
    (∃ h : n < N, ready copies[n] = false ∧ selectCopy copies ready n body = .raise .eUnconf) ∨
    (∃ h : n < N, ready copies[n] = true ∧ ∃ c, body copies[n] = .raise c ∧
      selectCopy copies ready n body = .raise c) ∨
    (∃ h : n < N, ready copies[n] = true ∧ ∃ new r0 r1, body copies[n] = .done new r0 r1 ∧
      selectCopy copies ready n body = .done (copies.set n new) r0 r1) := by
  by_cases h : n < N
  · cases hr : ready copies[n] with
    | false => exact .inr (.inl ⟨h, hr, selectCopy_unconf h hr⟩)
    | true =>
      cases hb : body copies[n] with
      | raise c => exact .inr (.inr (.inl ⟨h, hr, c, hb, selectCopy_raise h hr hb⟩))
      | done new r0 r1 => exact .inr (.inr (.inr ⟨h, hr, new, r0, r1, hb, selectCopy_done h hr hb⟩))
  · exact .inl ⟨Nat.not_lt.mp h, selectCopy_inst (Nat.not_lt.mp h)⟩

/-- R36: the outcome on two register files that agree on the selected copy: the same code, or the same new copy. -/
theorem selectCopy_congr {copies' : Vector α N} (h : copies[n]? = copies'[n]?) :
    (∃ c, selectCopy copies ready n body = .raise c ∧ selectCopy copies' ready n body = .raise c) ∨
    ∃ (hn : n < N) (new : α) (r0 r1 : Word), selectCopy copies ready n body = .done (copies.set n new) r0 r1 ∧
      selectCopy copies' ready n body = .done (copies'.set n new) r0 r1 := by
  by_cases hn : n < N
  · have he : copies[n] = copies'[n] := by simpa [Vector.getElem?_eq_getElem hn] using h
    unfold selectCopy
    rw [dif_pos hn, dif_pos hn, he]
    split
    · cases body copies'[n] with
      | raise c => exact .inl ⟨c, rfl, rfl⟩
      | done a r0 r1 => exact .inr ⟨hn, a, r0, r1, rfl, rfl⟩
    · exact .inl ⟨_, rfl, rfl⟩
  · exact .inl ⟨.eInst, selectCopy_inst (by omega), selectCopy_inst (by omega)⟩

@[simp] theorem anyCopy_eq (a : α) : anyCopy a = true := rfl

@[simp] theorem commit_raise {P : Params} (s : State P) (put : α → State P) (c : Code) : s.commit put (.raise c) = s.raise c := rfl

@[simp] theorem commit_done {P : Params} (s : State P) (put : α → State P) (new : α) (r0 r1 : Word) :
    s.commit put (.done new r0 r1) = (put new).complete r0 r1 := rfl

end Select

section TmrCommand

variable {P : Params} (s : State P) (ready : Tmr → Bool) (n : Nat) (body : Tmr → Verdict Tmr)

/-- R83, R231: all that a TMR command can do. -/
theorem tmrCommand_cases :
    (P.nTmr ≤ n ∧ s.tmrCommand ready n body = s.raise .eInst) ∨
    (∃ h : n < P.nTmr, ready s.tmr[n] = false ∧ s.tmrCommand ready n body = s.raise .eUnconf) ∨
    (∃ h : n < P.nTmr, ready s.tmr[n] = true ∧ ∃ c, body s.tmr[n] = .raise c ∧ s.tmrCommand ready n body = s.raise c) ∨
    (∃ h : n < P.nTmr, ready s.tmr[n] = true ∧ ∃ new r0 r1, body s.tmr[n] = .done new r0 r1 ∧
      s.tmrCommand ready n body =
        { s with tmr := s.tmr.set n new, res0 := r0, res1 := r1, code := .ok }) := by
  rcases selectCopy_cases s.tmr ready n body with ⟨h, e⟩ | ⟨h, hr, e⟩ | ⟨h, hr, c, hb, e⟩ | ⟨h, hr, a, r0, r1, hb, e⟩
  · exact .inl ⟨h, by rw [State.tmrCommand, e]; rfl⟩
  · exact .inr (.inl ⟨h, hr, by rw [State.tmrCommand, e]; rfl⟩)
  · exact .inr (.inr (.inl ⟨h, hr, c, hb, by rw [State.tmrCommand, e]; rfl⟩))
  · exact .inr (.inr (.inr ⟨h, hr, a, r0, r1, hb, by rw [State.tmrCommand, e]; rfl⟩))

/-- A command that its copy completes. -/
theorem tmrCommand_done (h : n < P.nTmr) (hr : ready s.tmr[n] = true) {new : Tmr} {r0 r1 : Word}
    (hb : body s.tmr[n] = .done new r0 r1) :
    s.tmrCommand ready n body = { s with tmr := s.tmr.set n new, res0 := r0, res1 := r1, code := .ok } := by
  rw [State.tmrCommand, selectCopy_done h hr hb]; rfl

/-- A command whose own check fails. -/
theorem tmrCommand_raise (h : n < P.nTmr) (hr : ready s.tmr[n] = true) {c : Code} (hb : body s.tmr[n] = .raise c) :
    s.tmrCommand ready n body = s.raise c := by
  rw [State.tmrCommand, selectCopy_raise h hr hb]; rfl

end TmrCommand

section IirCommand

variable {P : Params} (s : State P) (ready : Iir → Bool) (n : Nat) (body : Iir → Verdict Iir)

/-- R83, R231: all that a IIR command can do. -/
theorem iirCommand_cases :
    (P.nIir ≤ n ∧ s.iirCommand ready n body = s.raise .eInst) ∨
    (∃ h : n < P.nIir, ready s.iir[n] = false ∧ s.iirCommand ready n body = s.raise .eUnconf) ∨
    (∃ h : n < P.nIir, ready s.iir[n] = true ∧ ∃ c, body s.iir[n] = .raise c ∧ s.iirCommand ready n body = s.raise c) ∨
    (∃ h : n < P.nIir, ready s.iir[n] = true ∧ ∃ new r0 r1, body s.iir[n] = .done new r0 r1 ∧
      s.iirCommand ready n body =
        { s with iir := s.iir.set n new, res0 := r0, res1 := r1, code := .ok }) := by
  rcases selectCopy_cases s.iir ready n body with ⟨h, e⟩ | ⟨h, hr, e⟩ | ⟨h, hr, c, hb, e⟩ | ⟨h, hr, a, r0, r1, hb, e⟩
  · exact .inl ⟨h, by rw [State.iirCommand, e]; rfl⟩
  · exact .inr (.inl ⟨h, hr, by rw [State.iirCommand, e]; rfl⟩)
  · exact .inr (.inr (.inl ⟨h, hr, c, hb, by rw [State.iirCommand, e]; rfl⟩))
  · exact .inr (.inr (.inr ⟨h, hr, a, r0, r1, hb, by rw [State.iirCommand, e]; rfl⟩))

/-- A command that its copy completes. -/
theorem iirCommand_done (h : n < P.nIir) (hr : ready s.iir[n] = true) {new : Iir} {r0 r1 : Word}
    (hb : body s.iir[n] = .done new r0 r1) :
    s.iirCommand ready n body = { s with iir := s.iir.set n new, res0 := r0, res1 := r1, code := .ok } := by
  rw [State.iirCommand, selectCopy_done h hr hb]; rfl

/-- A command whose own check fails. -/
theorem iirCommand_raise (h : n < P.nIir) (hr : ready s.iir[n] = true) {c : Code} (hb : body s.iir[n] = .raise c) :
    s.iirCommand ready n body = s.raise c := by
  rw [State.iirCommand, selectCopy_raise h hr hb]; rfl

end IirCommand

section MavCommand

variable {P : Params} (s : State P) (ready : Mav → Bool) (n : Nat) (body : Mav → Verdict Mav)

/-- R83, R231: all that a MAV command can do. -/
theorem mavCommand_cases :
    (P.nMav ≤ n ∧ s.mavCommand ready n body = s.raise .eInst) ∨
    (∃ h : n < P.nMav, ready s.mav[n] = false ∧ s.mavCommand ready n body = s.raise .eUnconf) ∨
    (∃ h : n < P.nMav, ready s.mav[n] = true ∧ ∃ c, body s.mav[n] = .raise c ∧ s.mavCommand ready n body = s.raise c) ∨
    (∃ h : n < P.nMav, ready s.mav[n] = true ∧ ∃ new r0 r1, body s.mav[n] = .done new r0 r1 ∧
      s.mavCommand ready n body =
        { s with mav := s.mav.set n new, res0 := r0, res1 := r1, code := .ok }) := by
  rcases selectCopy_cases s.mav ready n body with ⟨h, e⟩ | ⟨h, hr, e⟩ | ⟨h, hr, c, hb, e⟩ | ⟨h, hr, a, r0, r1, hb, e⟩
  · exact .inl ⟨h, by rw [State.mavCommand, e]; rfl⟩
  · exact .inr (.inl ⟨h, hr, by rw [State.mavCommand, e]; rfl⟩)
  · exact .inr (.inr (.inl ⟨h, hr, c, hb, by rw [State.mavCommand, e]; rfl⟩))
  · exact .inr (.inr (.inr ⟨h, hr, a, r0, r1, hb, by rw [State.mavCommand, e]; rfl⟩))

/-- A command that its copy completes. -/
theorem mavCommand_done (h : n < P.nMav) (hr : ready s.mav[n] = true) {new : Mav} {r0 r1 : Word}
    (hb : body s.mav[n] = .done new r0 r1) :
    s.mavCommand ready n body = { s with mav := s.mav.set n new, res0 := r0, res1 := r1, code := .ok } := by
  rw [State.mavCommand, selectCopy_done h hr hb]; rfl

/-- A command whose own check fails. -/
theorem mavCommand_raise (h : n < P.nMav) (hr : ready s.mav[n] = true) {c : Code} (hb : body s.mav[n] = .raise c) :
    s.mavCommand ready n body = s.raise c := by
  rw [State.mavCommand, selectCopy_raise h hr hb]; rfl

end MavCommand

section RmpCommand

variable {P : Params} (s : State P) (ready : Rmp → Bool) (n : Nat) (body : Rmp → Verdict Rmp)

/-- R83, R231: all that a RMP command can do. -/
theorem rmpCommand_cases :
    (P.nRmp ≤ n ∧ s.rmpCommand ready n body = s.raise .eInst) ∨
    (∃ h : n < P.nRmp, ready s.rmp[n] = false ∧ s.rmpCommand ready n body = s.raise .eUnconf) ∨
    (∃ h : n < P.nRmp, ready s.rmp[n] = true ∧ ∃ c, body s.rmp[n] = .raise c ∧ s.rmpCommand ready n body = s.raise c) ∨
    (∃ h : n < P.nRmp, ready s.rmp[n] = true ∧ ∃ new r0 r1, body s.rmp[n] = .done new r0 r1 ∧
      s.rmpCommand ready n body =
        { s with rmp := s.rmp.set n new, res0 := r0, res1 := r1, code := .ok }) := by
  rcases selectCopy_cases s.rmp ready n body with ⟨h, e⟩ | ⟨h, hr, e⟩ | ⟨h, hr, c, hb, e⟩ | ⟨h, hr, a, r0, r1, hb, e⟩
  · exact .inl ⟨h, by rw [State.rmpCommand, e]; rfl⟩
  · exact .inr (.inl ⟨h, hr, by rw [State.rmpCommand, e]; rfl⟩)
  · exact .inr (.inr (.inl ⟨h, hr, c, hb, by rw [State.rmpCommand, e]; rfl⟩))
  · exact .inr (.inr (.inr ⟨h, hr, a, r0, r1, hb, by rw [State.rmpCommand, e]; rfl⟩))

/-- A command that its copy completes. -/
theorem rmpCommand_done (h : n < P.nRmp) (hr : ready s.rmp[n] = true) {new : Rmp} {r0 r1 : Word}
    (hb : body s.rmp[n] = .done new r0 r1) :
    s.rmpCommand ready n body = { s with rmp := s.rmp.set n new, res0 := r0, res1 := r1, code := .ok } := by
  rw [State.rmpCommand, selectCopy_done h hr hb]; rfl

/-- A command whose own check fails. -/
theorem rmpCommand_raise (h : n < P.nRmp) (hr : ready s.rmp[n] = true) {c : Code} (hb : body s.rmp[n] = .raise c) :
    s.rmpCommand ready n body = s.raise c := by
  rw [State.rmpCommand, selectCopy_raise h hr hb]; rfl

end RmpCommand

section Memory

variable {capacity : Nat}

@[simp] theorem bufRead_nil (k : Nat) : bufRead [] k = unlistedSlot := rfl

theorem bufRead_cons (j : Nat) (v : Word) (m : SampleMemory) (k : Nat) :
    bufRead ((j, v) :: m) k = if j = k then v else bufRead m k := rfl

/-- A slot below every listed one reads as unlisted. -/
theorem bufRead_of_below {m : SampleMemory} {k : Nat} (h : ∀ c ∈ m, k < c.1) : bufRead m k = unlistedSlot := by
  induction m with
  | nil => rfl
  | cons c m ih =>
    obtain ⟨j, v⟩ := c
    have hj : k < j := h (j, v) (by simp)
    rw [bufRead_cons, if_neg (by omega)]
    exact ih fun c hc => h c (by simp [hc])

theorem bufInsert_keys {k : Nat} {v : Word} {m : SampleMemory} {c : Nat × Word} (h : c ∈ bufInsert k v m) :
    c = (k, v) ∨ c ∈ m := by
  induction m with
  | nil => simpa [bufInsert] using h
  | cons d m ih =>
    obtain ⟨j, u⟩ := d
    simp only [bufInsert] at h
    split at h
    · rcases List.mem_cons.mp h with h | h
      · exact .inr (by simp [h])
      · rcases ih h with h | h
        · exact .inl h
        · exact .inr (by simp [h])
    · split at h
      · rcases List.mem_cons.mp h with h | h
        · exact .inl h
        · exact .inr (by simp [h])
      · rcases List.mem_cons.mp h with h | h
        · exact .inl h
        · exact .inr h

theorem bufErase_sub {k : Nat} {m : SampleMemory} {c : Nat × Word} (h : c ∈ bufErase k m) : c ∈ m := by
  induction m with
  | nil => exact h
  | cons d m ih =>
    simp only [bufErase] at h
    split at h
    · simp [h]
    · rcases List.mem_cons.mp h with h | h
      · simp [h]
      · simp [ih h]

theorem bufInsert_wf {k : Nat} {v : Word} {m : SampleMemory} (hk : k < capacity) (hv : v ≠ unlistedSlot)
    (hm : SampleMemory.wf capacity m) : SampleMemory.wf capacity (bufInsert k v m) := by
  refine ⟨?_, fun c hc => ?_⟩
  · replace hm := hm.1
    induction m with
    | nil => simp [bufInsert]
    | cons d m ih =>
      obtain ⟨j, u⟩ := d
      obtain ⟨h1, h2⟩ := List.pairwise_cons.mp hm
      simp only [bufInsert]
      split
      · rename_i hjk
        refine List.pairwise_cons.mpr ⟨fun c hc => ?_, ih h2⟩
        rcases bufInsert_keys hc with rfl | hc
        · exact hjk
        · exact h1 c hc
      · split
        · rename_i _ hjk
          exact List.pairwise_cons.mpr ⟨fun c hc => by have := h1 c hc; simp only at this ⊢; omega, h2⟩
        · rename_i hlt hne
          refine List.pairwise_cons.mpr ⟨fun c hc => ?_, hm⟩
          rcases List.mem_cons.mp hc with rfl | hc
          · simp only; omega
          · have := h1 c hc; simp only at this ⊢; omega
  · rcases bufInsert_keys hc with rfl | hc
    · exact ⟨hk, hv⟩
    · exact hm.2 c hc

theorem bufErase_wf {k : Nat} {m : SampleMemory} (hm : SampleMemory.wf capacity m) : SampleMemory.wf capacity (bufErase k m) := by
  refine ⟨?_, fun c hc => hm.2 c (bufErase_sub hc)⟩
  replace hm := hm.1
  induction m with
  | nil => exact hm
  | cons d m ih =>
    obtain ⟨h1, h2⟩ := List.pairwise_cons.mp hm
    simp only [bufErase]
    split
    · exact h2
    · exact List.pairwise_cons.mpr ⟨fun c hc => h1 c (bufErase_sub hc), ih h2⟩

/-- Every write keeps the canonical form. -/
theorem bufWrite_wf {m : SampleMemory} (k : Nat) (v : Word) (hm : SampleMemory.wf capacity m) :
    SampleMemory.wf capacity (bufWrite capacity m k v) := by
  unfold bufWrite
  split
  · rename_i hk
    split
    · exact bufErase_wf hm
    · rename_i hv
      exact bufInsert_wf hk hv hm
  · exact hm

/-- Filling keeps the canonical form. -/
theorem bufFill_wf {m : SampleMemory} (v : Word) (N : Nat) (hm : SampleMemory.wf capacity m) :
    SampleMemory.wf capacity (bufFill capacity m v N) := by
  induction N with
  | zero => exact hm
  | succ k ih => exact bufWrite_wf k v ih

theorem bufRead_bufInsert (k : Nat) (v : Word) (m : SampleMemory) (j : Nat) :
    bufRead (bufInsert k v m) j = if j = k then v else bufRead m j := by
  induction m with
  | nil => simp only [bufInsert, bufRead_cons, bufRead_nil, eq_comm]
  | cons d m ih =>
    obtain ⟨i, u⟩ := d
    simp only [bufInsert]
    split
    · rw [bufRead_cons, bufRead_cons, ih]
      split <;> split <;> first | rfl | omega
    · split
      · rw [bufRead_cons, bufRead_cons]
        split <;> split <;> (try split) <;> first | rfl | omega
      · rw [bufRead_cons]
        split <;> split <;> first | rfl | omega

theorem bufRead_bufErase {m : SampleMemory} (hm : List.Pairwise (fun a b => a.1 < b.1) m) (k j : Nat) :
    bufRead (bufErase k m) j = if j = k then unlistedSlot else bufRead m j := by
  induction m with
  | nil => simp [bufErase]
  | cons d m ih =>
    obtain ⟨i, u⟩ := d
    obtain ⟨h1, h2⟩ := List.pairwise_cons.mp hm
    simp only [bufErase]
    split
    · rename_i hik
      split
      · exact bufRead_of_below fun c hc => by have := h1 c hc; simp only at this; omega
      · rw [bufRead_cons, if_neg (by omega)]
    · rw [bufRead_cons, bufRead_cons, ih h2]
      split <;> split <;> first | rfl | omega

/-- What a write of an existing slot does to every slot: read after write. -/
theorem bufRead_bufWrite {m : SampleMemory} (hm : SampleMemory.wf capacity m) {k : Nat} (hk : k < capacity) (v : Word) (j : Nat) :
    bufRead (bufWrite capacity m k v) j = if j = k then v else bufRead m j := by
  rw [bufWrite, if_pos hk]
  split
  · rename_i hv
    rw [bufRead_bufErase hm.1, hv]
  · exact bufRead_bufInsert k v m j

/-- What a fill does to every slot: the slots from N up keep their values. -/
theorem bufRead_bufFill {m : SampleMemory} (hm : SampleMemory.wf capacity m) (v : Word) {N : Nat} (hN : N ≤ capacity) (j : Nat) :
    bufRead (bufFill capacity m v N) j = if j < N then v else bufRead m j := by
  induction N with
  | zero => simp [bufFill]
  | succ k ih =>
    rw [bufFill, bufRead_bufWrite (bufFill_wf v k hm) (by omega), ih (by omega)]
    split <;> split <;> (try split) <;> first | rfl | omega

/-- The reset memory is in the canonical form. -/
theorem reset_buf_wf {P : Params} (n : Nat) (h : n < P.nMav) :
    SampleMemory.wf P.maxWin (State.resetWith P).mav[n].buf := by
  simp [State.resetWith, Mav.atReset, SampleMemory.wf]

end Memory

end Sys2Proof.Machine
end

