-- ==== Sys2Proof/Laws/Exec.lean ====
section
/-! SUPPORT. What the commands of each unit have in common: each is one call of the unit's shared operation, with a
body that depends on the ARG registers alone (spec 10_state.md R36; 00_scope.md R14). Later proofs about every command
cite these instead of unfolding `exec`. `execFor_…` is about a block with any parameters, `exec_…` about this block. -/

namespace Sys2Proof.Machine

open Sys2Proof.Config

variable {P : Params}

/-- The four ARG registers agree. -/
abbrev SameArgs (s s' : State P) : Prop :=
  s.arg0 = s'.arg0 ∧ s.arg1 = s'.arg1 ∧ s.arg2 = s'.arg2 ∧ s.arg3 = s'.arg3

theorem sameArgs_refl (s : State P) : SameArgs s s := ⟨rfl, rfl, rfl, rfl⟩

/-- A command's own check raises a fault code, never OK. -/
abbrev RaisesFaults {α : Type} (body : α → Verdict α) : Prop := ∀ a c, body a = .raise c → c ≠ .ok

/-- R191: RMP.INIT raises E_FRANGE or E_ARG. -/
theorem rmpInit_raises (period incRate decRate : Word) : RaisesFaults (rmpInit period incRate decRate) := by
  intro a c e
  unfold rmpInit at e
  cases hi : f2x incRate with
  | none => simp only [hi] at e; cases e; decide
  | some i =>
    cases hd : f2x decRate with
    | none => simp only [hi, hd] at e; cases e; decide
    | some d =>
      simp only [hi, hd] at e
      split_ifs at e <;> cases e <;> decide

/-- What an FX command can do. -/
theorem fxCommand_cases (s : State P) (r : Option Word) (c : Code) :
    (r = none ∧ s.fxCommand r c = s.raise c) ∨ (∃ v, r = some v ∧ s.fxCommand r c = s.complete v 0) := by
  cases r <;> simp [State.fxCommand]

/-- R100: an FX command is one function of the ARG registers and one fault code. -/
theorem execFor_fx_shape (i : Instr) (s : State P) (h : i.unit = .fx) :
    ∃ r c, c ≠ Code.ok ∧ ∀ s', SameArgs s s' → execFor i s' = .next (s'.fxCommand r c) := by
  cases i <;> cases h
  case fxF2x => exact ⟨f2x s.arg0, .eFrange, by decide, fun s' h => by rw [h.1]; rfl⟩
  case fxDiv => exact ⟨fxdiv s.arg0 s.arg1, .eDiv0, by decide, fun s' h => by rw [h.1, h.2.1]; rfl⟩
  case fxTc => exact ⟨tcfix s.arg0 s.arg1, .eFrange, by decide, fun s' h => by rw [h.1, h.2.1]; rfl⟩
  case fxX2f => exact ⟨some (x2f s.arg0), .eArg, by decide, fun s' h => by rw [h.1]; rfl⟩
  case fxI2x => exact ⟨some (i2x s.arg0), .eArg, by decide, fun s' h => by rw [h.1]; rfl⟩
  case fxX2i => exact ⟨some (x2i s.arg0), .eArg, by decide, fun s' h => by rw [h.1]; rfl⟩
  case fxMul => exact ⟨some (fxmul s.arg0 s.arg1), .eArg, by decide, fun s' h => by rw [h.1, h.2.1]; rfl⟩
  case fxAdd => exact ⟨some (fxadd s.arg0 s.arg1), .eArg, by decide, fun s' h => by rw [h.1, h.2.1]; rfl⟩
  case fxSub => exact ⟨some (fxsub s.arg0 s.arg1), .eArg, by decide, fun s' h => by rw [h.1, h.2.1]; rfl⟩
  case fxMac =>
    exact ⟨some (fxmac s.arg0 s.arg1 s.arg2), .eArg, by decide, fun s' h => by rw [h.1, h.2.1, h.2.2.1]; rfl⟩
  case fxFc => exact ⟨some (cutoff s.arg0 s.arg1), .eArg, by decide, fun s' h => by rw [h.1, h.2.1]; rfl⟩

/-- A TMR command is one body, depending on the ARG registers alone, run on the copy it selects. -/
theorem execFor_tmr_shape (i : Instr) (s : State P) (h : i.unit = .tmr) : ∃ ready body, RaisesFaults body ∧
    ∀ s', SameArgs s s' → execFor i s' = .next (s'.tmrCommand ready i.inst body) := by
  cases i <;> cases h
  case tmrInit =>
    refine ⟨anyCopy, (tmrInit s.arg0), fun a c => ?_, fun s' h => by rw [h.1]; rfl⟩
    exact nofun
  case tmrDue =>
    refine ⟨Tmr.valid, (tmrDue s.arg0), fun a c => ?_, fun s' h => by rw [h.1]; rfl⟩
    unfold tmrDue; split <;> exact nofun
  case tmrSetp =>
    refine ⟨Tmr.valid, (tmrSetp s.arg0), fun a c => ?_, fun s' h => by rw [h.1]; rfl⟩
    exact nofun
  case tmrStart =>
    refine ⟨Tmr.valid, (tmrStart s.arg0), fun a c => ?_, fun s' h => by rw [h.1]; rfl⟩
    exact nofun
  case tmrStop =>
    refine ⟨Tmr.valid, (tmrStop s.arg0), fun a c => ?_, fun s' h => by rw [h.1]; rfl⟩
    unfold tmrStop; split <;> exact nofun
  case tmrElap =>
    refine ⟨Tmr.valid, (tmrElap s.arg0), fun a c => ?_, fun s' h => by rw [h.1]; rfl⟩
    exact nofun
  case tmrRd =>
    refine ⟨anyCopy, (tmrRd s.arg0), fun a c => ?_, fun s' h => by rw [h.1]; rfl⟩
    unfold tmrRd; split <;> (intro e; cases e)
    decide

/-- A IIR command is one body, depending on the ARG registers alone, run on the copy it selects. -/
theorem execFor_iir_shape (i : Instr) (s : State P) (h : i.unit = .iir) : ∃ ready body, RaisesFaults body ∧
    ∀ s', SameArgs s s' → execFor i s' = .next (s'.iirCommand ready i.inst body) := by
  cases i <;> cases h
  case iirInit =>
    refine ⟨anyCopy, (iirInit s.arg0 s.arg1 s.arg2 s.arg3), fun a c => ?_,
      fun s' h => by rw [h.1, h.2.1, h.2.2.1, h.2.2.2]; rfl⟩
    unfold iirInit; (repeat' split) <;> (intro e; cases e)
    all_goals decide
  case iirInittc =>
    refine ⟨anyCopy, (iirInittc s.arg0 s.arg1 s.arg3), fun a c => ?_, fun s' h => by rw [h.1, h.2.1, h.2.2.2]; rfl⟩
    unfold iirInittc; split <;> (intro e; cases e)
    decide
  case iirStep =>
    refine ⟨Iir.valid, (iirStep s.arg0), fun a c => ?_, fun s' h => by rw [h.1]; rfl⟩
    exact nofun
  case iirRd =>
    refine ⟨anyCopy, (iirRd s.arg0), fun a c => ?_, fun s' h => by rw [h.1]; rfl⟩
    unfold iirRd; split <;> (intro e; cases e)
    decide

/-- A MAV command is one body, depending on the ARG registers alone, run on the copy it selects. -/
theorem execFor_mav_shape (i : Instr) (s : State P) (h : i.unit = .mav) : ∃ ready body, RaisesFaults body ∧
    ∀ s', SameArgs s s' → execFor i s' = .next (s'.mavCommand ready i.inst body) := by
  cases i <;> cases h
  case mavInit =>
    refine ⟨anyCopy, (mavInit P.maxWin s.arg0 s.arg1), fun a c => ?_, fun s' h => by rw [h.1, h.2.1]; rfl⟩
    unfold mavInit; split <;> (intro e; cases e)
    decide
  case mavStep =>
    refine ⟨Mav.valid, (mavStep P.maxWin s.arg0), fun a c => ?_, fun s' h => by rw [h.1]; rfl⟩
    exact nofun
  case mavRd =>
    refine ⟨anyCopy, (mavRd P.maxWin s.arg0), fun a c => ?_, fun s' h => by rw [h.1]; rfl⟩
    unfold mavRd; (repeat' split) <;> (intro e; cases e)
    all_goals decide

/-- A RMP command is one body, depending on the ARG registers alone, run on the copy it selects. -/
theorem execFor_rmp_shape (i : Instr) (s : State P) (h : i.unit = .rmp) : ∃ ready body, RaisesFaults body ∧
    ∀ s', SameArgs s s' → execFor i s' = .next (s'.rmpCommand ready i.inst body) := by
  cases i <;> cases h
  case rmpInit =>
    refine ⟨anyCopy, (rmpInit s.arg0 s.arg1 s.arg2), fun a c => ?_, fun s' h => by rw [h.1, h.2.1, h.2.2.1]; rfl⟩
    exact rmpInit_raises _ _ _ a c
  case rmpSett =>
    refine ⟨Rmp.valid, (rmpSett s.arg0), fun a c => ?_, fun s' h => by rw [h.1]; rfl⟩
    exact nofun
  case rmpDelta =>
    refine ⟨Rmp.valid, rmpDelta, fun a c => ?_, fun _ _ => rfl⟩
    exact nofun
  case rmpUpd =>
    refine ⟨Rmp.valid, rmpUpd, fun a c => ?_, fun _ _ => rfl⟩
    exact nofun
  case rmpConv =>
    refine ⟨Rmp.valid, rmpConv, fun a c => ?_, fun _ _ => rfl⟩
    exact nofun
  case rmpRd =>
    refine ⟨anyCopy, (rmpRd s.arg0), fun a c => ?_, fun s' h => by rw [h.1]; rfl⟩
    unfold rmpRd; split <;> (intro e; cases e)
    decide

/-- R235: every command ends in a next state. -/
theorem execFor_next (i : Instr) (s : State P) : ∃ t, execFor i s = .next t := by
  cases i <;> exact ⟨_, rfl⟩

/-- R6: `exec` is the machine of any block at this block's parameters. -/
theorem exec_eq_execFor : (exec : Instr → State → _) = execFor := by
  funext i s; cases i <;> rfl

/-- R6: so is `step`. -/
theorem step_eq_stepFor : (step : State → _) = stepFor := by
  funext s; unfold step stepFor; rw [exec_eq_execFor]

section ThisBlock

variable (i : Instr) (s : State)

theorem exec_fx_shape (h : i.unit = .fx) :
    ∃ r c, c ≠ Code.ok ∧ ∀ s', SameArgs s s' → exec i s' = .next (s'.fxCommand r c) := by
  rw [exec_eq_execFor]; exact execFor_fx_shape i s h

theorem exec_tmr_shape (h : i.unit = .tmr) : ∃ ready body, RaisesFaults body ∧
    ∀ s', SameArgs s s' → exec i s' = .next (s'.tmrCommand ready i.inst body) := by
  rw [exec_eq_execFor]; exact execFor_tmr_shape i s h

theorem exec_iir_shape (h : i.unit = .iir) : ∃ ready body, RaisesFaults body ∧
    ∀ s', SameArgs s s' → exec i s' = .next (s'.iirCommand ready i.inst body) := by
  rw [exec_eq_execFor]; exact execFor_iir_shape i s h

theorem exec_mav_shape (h : i.unit = .mav) : ∃ ready body, RaisesFaults body ∧
    ∀ s', SameArgs s s' → exec i s' = .next (s'.mavCommand ready i.inst body) := by
  rw [exec_eq_execFor]; exact execFor_mav_shape i s h

theorem exec_rmp_shape (h : i.unit = .rmp) : ∃ ready body, RaisesFaults body ∧
    ∀ s', SameArgs s s' → exec i s' = .next (s'.rmpCommand ready i.inst body) := by
  rw [exec_eq_execFor]; exact execFor_rmp_shape i s h

theorem exec_next : ∃ t, exec i s = .next t := by
  rw [exec_eq_execFor]; exact execFor_next i s

end ThisBlock

end Sys2Proof.Machine
end

