-- ==== Sys2Proof/Laws/PerInstr.lean ====
section
/-! SUPPORT. One lemma per command about the command as encoded: the three fields of its word (30_encoding.md R80). -/

namespace Sys2Proof.Laws.Fields

/-- R80: the encoder puts OPC, INST and RSV where the decoder's field functions read them. -/
def Statement (i : Instr) : Prop :=
  opcField (encode i) = i.opc.toNat ∧ instField (encode i) = i.inst % 256 ∧ rsvField (encode i) = 0

/-- The word of R80 as a number. -/
theorem toNat_word (x op : BitVec 8) : (0#16 ++ x ++ op : Word).toNat = 256 * x.toNat + op.toNat := by
  have h : (0#16 ++ x ++ op : Word).toNat = (0#16 ++ x).toNat <<< 8 ||| op.toNat := BitVec.toNat_append _ _
  have hx : (0#16 ++ x).toNat = x.toNat := (BitVec.toNat_append _ _).trans (by simp)
  rw [h, hx, ← Nat.shiftLeft_add_eq_or_of_lt op.isLt, Nat.shiftLeft_eq]
  omega

/-- Field extraction from a word built of RSV, INST and OPC. -/
theorem of_append (op x : BitVec 8) : opcField (0#16 ++ x ++ op) = op.toNat ∧
    instField (0#16 ++ x ++ op) = x.toNat ∧ rsvField (0#16 ++ x ++ op) = 0 := by
  have hop := op.isLt
  have hx := x.isLt
  refine ⟨?_, ?_, ?_⟩
  · rw [opcField, BitVec.extractLsb'_toNat, toNat_word, Nat.shiftRight_eq_div_pow]; omega
  · rw [instField, BitVec.extractLsb'_toNat, toNat_word, Nat.shiftRight_eq_div_pow]; omega
  · rw [rsvField, BitVec.extractLsb'_toNat, toNat_word, Nat.shiftRight_eq_div_pow]; omega

/-- The statement holds of every command; the lemmas below give it to each constructor by name. -/
theorem of_any (i : Instr) : Statement i := by
  have h := of_append i.opc (BitVec.ofNat 8 i.inst)
  exact ⟨h.1, h.2.1.trans (by simp), h.2.2⟩

theorem fxF2x : Statement .fxF2x := of_any _
theorem fxX2f : Statement .fxX2f := of_any _
theorem fxI2x : Statement .fxI2x := of_any _
theorem fxX2i : Statement .fxX2i := of_any _
theorem fxMul : Statement .fxMul := of_any _
theorem fxDiv : Statement .fxDiv := of_any _
theorem fxAdd : Statement .fxAdd := of_any _
theorem fxSub : Statement .fxSub := of_any _
theorem fxMac : Statement .fxMac := of_any _
theorem fxTc : Statement .fxTc := of_any _
theorem fxFc : Statement .fxFc := of_any _
theorem tmrInit (n : Nat) : Statement (.tmrInit n) := of_any _
theorem tmrDue (n : Nat) : Statement (.tmrDue n) := of_any _
theorem tmrSetp (n : Nat) : Statement (.tmrSetp n) := of_any _
theorem tmrStart (n : Nat) : Statement (.tmrStart n) := of_any _
theorem tmrStop (n : Nat) : Statement (.tmrStop n) := of_any _
theorem tmrElap (n : Nat) : Statement (.tmrElap n) := of_any _
theorem tmrRd (n : Nat) : Statement (.tmrRd n) := of_any _
theorem iirInit (n : Nat) : Statement (.iirInit n) := of_any _
theorem iirInittc (n : Nat) : Statement (.iirInittc n) := of_any _
theorem iirStep (n : Nat) : Statement (.iirStep n) := of_any _
theorem iirRd (n : Nat) : Statement (.iirRd n) := of_any _
theorem mavInit (n : Nat) : Statement (.mavInit n) := of_any _
theorem mavStep (n : Nat) : Statement (.mavStep n) := of_any _
theorem mavRd (n : Nat) : Statement (.mavRd n) := of_any _
theorem rmpInit (n : Nat) : Statement (.rmpInit n) := of_any _
theorem rmpSett (n : Nat) : Statement (.rmpSett n) := of_any _
theorem rmpDelta (n : Nat) : Statement (.rmpDelta n) := of_any _
theorem rmpUpd (n : Nat) : Statement (.rmpUpd n) := of_any _
theorem rmpConv (n : Nat) : Statement (.rmpConv n) := of_any _
theorem rmpRd (n : Nat) : Statement (.rmpRd n) := of_any _
theorem sysNop : Statement .sysNop := of_any _
theorem sysClrst : Statement .sysClrst := of_any _
theorem sysReset : Statement .sysReset := of_any _

end Sys2Proof.Laws.Fields
end

