-- ==== Sys2Proof/Laws/Step.lean ====
section
/-! SUPPORT. What a step does with each interaction of the outside world (60_exceptions.md R245). -/

namespace Sys2Proof.Machine

open Sys2Proof.Config

variable {P : Params}

/-- R231: raising a fault code. -/
theorem raise_eq_faulted (s : State P) {c : Code} (h : c ≠ .ok) : s.raise c = s.faulted c := by
  simp [State.raise, State.faulted, Code.stickyBit, h]

/-- R231: completing. -/
theorem complete_eq_completed (s : State P) (r0 r1 : Word) : s.complete r0 r1 = s.completed r0 r1 := rfl

section AnyBlock

variable {run : Instr → State P → Host.Outcome (State P) Fault Refusal} {s : State P} {later : List HostOp}

theorem stepBy_idle (h : s.pending = []) : stepBy run s = .next s := by simp [stepBy, h]

theorem stepBy_op {op : HostOp} (h : s.pending = op :: later) :
    stepBy run s = performOpBy run op { s with pending := later } := by
  simp [stepBy, h]

/-- All that a step of any block can do. -/
theorem stepBy_cases (run : Instr → State P → Host.Outcome (State P) Fault Refusal) (s : State P) :
    (s.pending = [] ∧ stepBy run s = .next s) ∨
    (∃ op later, s.pending = op :: later ∧ stepBy run s = performOpBy run op { s with pending := later }) := by
  cases h : s.pending with
  | nil => exact .inl ⟨rfl, stepBy_idle h⟩
  | cons op later => exact .inr ⟨op, later, rfl, stepBy_op h⟩

end AnyBlock

variable {s : State} {later : List HostOp}

theorem step_idle (h : s.pending = []) : step s = .next s := stepBy_idle h

theorem step_op {op : HostOp} (h : s.pending = op :: later) : step s = performOp op { s with pending := later } :=
  stepBy_op h

@[simp] theorem legalAccess_word {off : Nat} : legalAccess off 4 = (off % 4 == 0 && decide (off < 0x40)) := by
  simp [legalAccess]

theorem step_command {w : Word} (h : s.pending = .write 0 4 w :: later) :
    step s = performCommand w { s with pending := later } := by
  rw [step_op h]; rfl

theorem step_withFetchWord (nbits w : Nat) :
    step (s.withFetchWord nbits w) = performCommand (BitVec.ofNat 32 (w % 2 ^ nbits)) s := rfl

/-- All that a step can do. -/
theorem step_cases (s : State) :
    (s.pending = [] ∧ step s = .next s) ∨
    (∃ op later, s.pending = op :: later ∧ step s = performOp op { s with pending := later }) :=
  stepBy_cases exec s

/-- R6, R61: the address P_BASE + off is the byte offset `off`. -/
theorem offsetOfAddress_base (off : Nat) : offsetOfAddress (P_BASE + off) = some off := by
  simp [offsetOfAddress]

/-- R6: the window is 64-byte aligned. -/
theorem base_aligned : P_BASE % 64 = 0 := Nat.mul_mod_right 64 windowFrame

end Sys2Proof.Machine
end

