-- ==== Sys2Proof/Tests/Slice0.lean ====
section
/-! SUPPORT. The model's own tests. Expected values are those of spec/95_test_vectors.md (its vector's name stands in
the comment) or of the rule named; the words are written out from the bit patterns of 30_encoding.md R84. The last part
shows, for each statement with hypotheses, states and operands that meet them. -/

namespace Sys2Proof.Tests

open Sys2Proof.Machine Sys2Proof.Config

-- WellFormed: an ill-formed term for its one check, refused; the boundary is accepted

theorem test_wf_refuses_inst_256 : Instr.wf (.tmrDue 256) = false := by decide
theorem test_wf_refuses_rmp_inst_300 : Instr.wf (.rmpUpd 300) = false := by decide
theorem test_wf_accepts_inst_255 : Instr.wf (.tmrDue 255) = true := by decide

-- Decode: every command's word, bit by bit from R84

theorem test_decode_fxF2x : decode 0b00000000000000000000000000000001#32 = .ok .fxF2x := by rfl
theorem test_decode_fxX2f : decode 0b00000000000000000000000000000010#32 = .ok .fxX2f := by rfl
theorem test_decode_fxI2x : decode 0b00000000000000000000000000000011#32 = .ok .fxI2x := by rfl
theorem test_decode_fxX2i : decode 0b00000000000000000000000000000100#32 = .ok .fxX2i := by rfl
theorem test_decode_fxMul : decode 0b00000000000000000000000000000101#32 = .ok .fxMul := by rfl
theorem test_decode_fxDiv : decode 0b00000000000000000000000000000110#32 = .ok .fxDiv := by rfl
theorem test_decode_fxAdd : decode 0b00000000000000000000000000000111#32 = .ok .fxAdd := by rfl
theorem test_decode_fxSub : decode 0b00000000000000000000000000001000#32 = .ok .fxSub := by rfl
theorem test_decode_fxMac : decode 0b00000000000000000000000000001001#32 = .ok .fxMac := by rfl
theorem test_decode_fxTc : decode 0b00000000000000000000000000001010#32 = .ok .fxTc := by rfl
theorem test_decode_fxFc : decode 0b00000000000000000000000000001011#32 = .ok .fxFc := by rfl
theorem test_decode_tmrInit : decode 0b00000000000000000000001100010000#32 = .ok (.tmrInit 3) := by rfl
theorem test_decode_tmrDue : decode 0b00000000000000000000000000010001#32 = .ok (.tmrDue 0) := by rfl
theorem test_decode_tmrSetp : decode 0b00000000000000000000000100010010#32 = .ok (.tmrSetp 1) := by rfl
theorem test_decode_tmrStart : decode 0b00000000000000000000001000010011#32 = .ok (.tmrStart 2) := by rfl
theorem test_decode_tmrStop : decode 0b00000000000000000000001100010100#32 = .ok (.tmrStop 3) := by rfl
theorem test_decode_tmrElap : decode 0b00000000000000000000000000010101#32 = .ok (.tmrElap 0) := by rfl
theorem test_decode_tmrRd : decode 0b00000000000000000000000100011111#32 = .ok (.tmrRd 1) := by rfl
theorem test_decode_iirInit : decode 0b00000000000000000000001000100000#32 = .ok (.iirInit 2) := by rfl
theorem test_decode_iirInittc : decode 0b00000000000000000000001100100001#32 = .ok (.iirInittc 3) := by rfl
theorem test_decode_iirStep : decode 0b00000000000000000000000000100010#32 = .ok (.iirStep 0) := by rfl
theorem test_decode_iirRd : decode 0b00000000000000000000000100101111#32 = .ok (.iirRd 1) := by rfl
theorem test_decode_mavInit : decode 0b00000000000000000000001000110000#32 = .ok (.mavInit 2) := by rfl
theorem test_decode_mavStep : decode 0b00000000000000000000001100110001#32 = .ok (.mavStep 3) := by rfl
theorem test_decode_mavRd : decode 0b00000000000000000000000000111111#32 = .ok (.mavRd 0) := by rfl
theorem test_decode_rmpInit : decode 0b00000000000000000000000101000000#32 = .ok (.rmpInit 1) := by rfl
theorem test_decode_rmpSett : decode 0b00000000000000000000001001000001#32 = .ok (.rmpSett 2) := by rfl
theorem test_decode_rmpDelta : decode 0b00000000000000000000001101000010#32 = .ok (.rmpDelta 3) := by rfl
theorem test_decode_rmpUpd : decode 0b00000000000000000000000001000011#32 = .ok (.rmpUpd 0) := by rfl
theorem test_decode_rmpConv : decode 0b00000000000000000000000101000100#32 = .ok (.rmpConv 1) := by rfl
theorem test_decode_rmpRd : decode 0b00000000000000000000001001001111#32 = .ok (.rmpRd 2) := by rfl
theorem test_decode_sysNop : decode 0b00000000000000000000000011110000#32 = .ok .sysNop := by rfl
theorem test_decode_sysClrst : decode 0b00000000000000000000000011110001#32 = .ok .sysClrst := by rfl
theorem test_decode_sysReset : decode 0b00000000000000000000000011110010#32 = .ok .sysReset := by rfl
theorem test_decode_rsv : decode 0b00000000000000010000000000110001#32 = .error .reservedNonzero := by rfl
theorem test_decode_unlisted : decode 0b00000000000000000000000000001100#32 = .error .opcodeUnlisted := by rfl
theorem test_decode_fx_inst : decode 0b00000000000000000000000100000001#32 = .error .instNonzero := by rfl

-- One command on a small state

/-- The reset state with the ARG registers written. -/
def withArgs (a0 a1 a2 a3 : Word) : State := { State.reset with arg0 := a0, arg1 := a1, arg2 := a2, arg3 := a3 }

/-- RES0, RES1 and STATUS after a command. -/
def answer (i : Instr) (s : State) : Option (Word × Word × Word) :=
  match exec i s with
  | .next t => some (t.res0, t.res1, t.statusWord)
  | _ => none

/-- The state after a command that follows, ARG0 written in between. -/
def thenCmd (i : Instr) (a0 : Word) (s : State) : State :=
  match exec i { s with arg0 := a0 } with
  | .next t => t
  | _ => s

/-- FX-F2X-3 -/
theorem test_f2x_trunc : answer .fxF2x (withArgs 0xBDCCCCCD 0 0 0) = some (0xFFFFE667, 0, 0) := by decide
/-- FX-F2X-8 -/
theorem test_f2x_range : answer .fxF2x (withArgs 0x47000000 0 0 0) = some (0, 0, 0x2005) := by decide
/-- FX-X2F-4 -/
theorem test_x2f_tie_even : answer .fxX2f (withArgs 0x1000003 0 0 0) = some (0x43800002, 0, 0) := by decide
/-- FX-X2F-2 -/
theorem test_x2f_carry : answer .fxX2f (withArgs 0x7FFFFFFF 0 0 0) = some (0x47000000, 0, 0) := by decide
/-- FX-I2X-5 -/
theorem test_i2x_wraps : answer .fxI2x (withArgs 0x8000 0 0 0) = some (0x80000000, 0, 0) := by decide
/-- FX-X2I-4 -/
theorem test_x2i_tie_up : answer .fxX2i (withArgs 0xFFFE8000 0 0 0) = some (0xFFFFFFFF, 0, 0) := by decide
/-- FX-X2I-7 -/
theorem test_x2i_no_overflow : answer .fxX2i (withArgs 0x7FFFFFFF 0 0 0) = some (0x8000, 0, 0) := by decide
/-- FX-MUL-2 -/
theorem test_mul_floor : answer .fxMul (withArgs 3 0xFFFF8000 0 0) = some (0xFFFFFFFE, 0, 0) := by decide
/-- FX-MUL-7 -/
theorem test_mul_wraps : answer .fxMul (withArgs 0x7FFFFFFF 0x7FFFFFFF 0 0) = some (0xFFFF0000, 0, 0) := by
  decide
/-- FX-DIV-3 -/
theorem test_div_trunc : answer .fxDiv (withArgs 0x10000 0xFFFD0000 0 0) = some (0xFFFFAAAB, 0, 0) := by
  decide
/-- FX-DIV-10 -/
theorem test_div_zero : answer .fxDiv (withArgs 0x10000 0 0 0) = some (0, 0, 0x1004) := by decide
/-- FX-ADD-1 -/
theorem test_add_wraps : answer .fxAdd (withArgs 0x7FFFFFFF 1 0 0) = some (0x80000000, 0, 0) := by decide
/-- FX-SUB-1 -/
theorem test_sub_wraps : answer .fxSub (withArgs 0x80000000 1 0 0) = some (0x7FFFFFFF, 0, 0) := by decide
/-- FX-MAC-2 -/
theorem test_mac_floor : answer .fxMac (withArgs 0xFFFFFFFF 1 0x10 0) = some (0xF, 0, 0) := by decide
/-- R111: FX.FC answers P_CFT of the time constant as a float. -/
theorem test_fc_applies_cft : answer .fxFc (withArgs 0x8000 10 0 0) = some (P_CFT 0x3F000000 10, 0, 0) := by
  rfl
/-- R110: FX.TC is FX.F2X of what P_TCF gives. -/
theorem test_tc_applies_tcf : ∀ r, P_TCF 0x3F800000 10 = r →
    answer .fxTc (withArgs 0x3F800000 10 0 0) = answer .fxF2x (withArgs r 0 0 0) := by
  intro r h
  subst h
  unfold answer exec execFxTc execFxF2x tcfix withArgs
  cases f2x (P_TCF 0x3F800000 10) <;> rfl
/-- 60_exceptions.md R232 example -/
theorem test_priority_inst : answer (.iirStep 4) (withArgs 0 0 0 0) = some (0, 0, 0x402) := by decide
/-- TMR-15 -/
theorem test_tmr_unconf : answer (.tmrDue 0) (withArgs 0 0 0 0) = some (0, 0, 0x803) := by decide
/-- TMR-17 -/
theorem test_tmr_rd_unconf : answer (.tmrRd 0) (withArgs 0 0 0 0) = some (0, 0, 0) := by decide

/-- TMR-1: a running timer of period 10, its bucket 2. -/
def timer0 : Tmr := { valid := true, period := 10, lastBucket := 2, startRef := 100, frozen := 7, running := true }
/-- L1-5: a filter of time constant 0.25. -/
def filter0 (mode : FilterMode) : Iir := { valid := true, mode := mode, tc := 0x4000, lp := 0, out := 0 }
/-- A moving average of window 4, its slots 10, 0, 0, 0 and its cursor at 3 (43_mav.md). -/
def average0 : Mav := { valid := true, win := 4, cursor := 3, sum := 10, out := 2, buf := [(0, 10)] }
/-- The ramp of L1-8, with target 90.0. -/
def ramp0 : Rmp :=
  { valid := true, present := 0, target := 0x5A0000, inc := 0x5A0000, dec := 0x2D0000, tick := 0x28F }

/-- The reset state with these copies on copy 0, and a HIGHPASS filter on copy 1. -/
def withCopies (t : Tmr) (f : Iir) (a : Mav) (r : Rmp) : State :=
  { State.reset with
      tmr := State.reset.tmr.set 0 t, iir := (State.reset.iir.set 0 f).set 1 (filter0 .highpass)
      mav := State.reset.mav.set 0 a, rmp := State.reset.rmp.set 0 r }
/-- One copy of each unit at work. -/
def busy : State := withCopies timer0 (filter0 .lowpass) average0 ramp0
/-- `busy` with another timer. -/
def timerAt (t : Tmr) : State := withCopies t (filter0 .lowpass) average0 ramp0
/-- `busy` with another filter on copy 0. -/
def filterAt (f : Iir) : State := withCopies timer0 f average0 ramp0
/-- `busy` with another ramp. -/
def rampAt (r : Rmp) : State := withCopies timer0 (filter0 .lowpass) average0 r

/-- R131: re-construction discards the stopwatch -/
theorem test_tmr_init : (thenCmd (.tmrInit 0) 5 busy).tmr[0] = { valid := true, period := 5, lastBucket := 0, startRef := 0, frozen := 0, running := false } := by
  decide
/-- TMR-1, last poll -/
theorem test_tmr_due_same_bucket : answer (.tmrDue 0) { busy with arg0 := 0x19 } = some (0, 0, 0) := by decide
/-- TMR-8 -/
theorem test_tmr_due_bucket : (thenCmd (.tmrDue 0) 0xFFFFFFFF busy).tmr[0].lastBucket = 0x19999999 := by
  decide
/-- R133 -/
theorem test_tmr_setp : (thenCmd (.tmrSetp 0) 7 busy).tmr[0].lastBucket = 2 := by decide
/-- TMR-14 -/
theorem test_tmr_start : (thenCmd (.tmrStart 0) 0x78 busy).tmr[0].startRef = 120 := by decide
/-- TMR-11 -/
theorem test_tmr_stop : (thenCmd (.tmrStop 0) 0xC8 busy).tmr[0].frozen = 100 := by decide
/-- R136: modulo 2^32 -/
theorem test_tmr_elap : answer (.tmrElap 0) { busy with arg0 := 0x10 } = some (0xFFFFFFAC, 0, 0) := by decide
/-- R137 -/
theorem test_tmr_rd : answer (.tmrRd 0) { busy with arg0 := 2 } = some (2, 0, 0) := by decide
/-- IIR-16 -/
theorem test_iir_init_mode_first : answer (.iirInit 0) (withArgs 2 0x7FC00000 0 0) = some (0, 0, 0x4006) := by
  decide
/-- R152 -/
theorem test_iir_inittc_mode : answer (.iirInittc 0) (withArgs 2 0 0 0) = some (0, 0, 0x4006) := by decide
/-- IIR-14 -/
theorem test_iir_inittc_highpass : (thenCmd (.iirInittc 0) 1 (withArgs 0 0x4000 0 0x10000)).iir[0] =
    { valid := true, mode := .highpass, tc := 0x4000, lp := 0x10000, out := 0 } := by decide
/-- IIR-1 -/
theorem test_iir_step_low : answer (.iirStep 0) { busy with arg0 := 0x10000 } = some (0x4000, 0, 0) := by
  decide
/-- IIR-2 -/
theorem test_iir_step_high : answer (.iirStep 1) { busy with arg0 := 0x10000 } = some (0xC000, 0, 0) := by
  decide
/-- R154 -/
theorem test_iir_rd_mode : answer (.iirRd 1) { busy with arg0 := 1 } = some (1, 0, 0) := by decide
/-- R154 -/
theorem test_iir_rd_sel5 : answer (.iirRd 0) { busy with arg0 := 5 } = some (0, 0, 0x4006) := by decide
/-- MAV-11 -/
theorem test_mav_init_zero : answer (.mavInit 0) (withArgs 0 0 0 0) = some (0, 0, 0x4006) := by decide
/-- MAV-12 -/
theorem test_mav_init_65 : answer (.mavInit 0) (withArgs 0x41 0 0 0) = some (0, 0, 0x4006) := by decide
/-- R172: (10 − 20) / 4 truncates to −2 -/
theorem test_mav_step_trunc : answer (.mavStep 0) { busy with arg0 := 0xFFFFFFEC } = some (0xFFFFFFFE, 0, 0) := by
  decide
/-- R172 -/
theorem test_mav_step_wraps_cursor : (thenCmd (.mavStep 0) 5 busy).mav[0] = { valid := true, win := 4, cursor := 0, sum := 15, out := 3, buf := [(0, 10), (3, 5)] } := by
  decide
/-- R173 example -/
theorem test_mav_rd_slot : answer (.mavRd 0) { busy with arg0 := 0x100 } = some (0xA, 0, 0) := by decide
/-- MAV-9: the sum's high word. -/
theorem test_mav_rd_sum : answer (.mavRd 0) { thenCmd (.mavInit 0) 2 (withArgs 0 0x80000000 0 0) with arg0 := 3 } =
    some (0, 0xFFFFFFFF, 0) := by decide

/-- RMP-1 -/
theorem test_rmp_init : (thenCmd (.rmpInit 0) 10 (withArgs 0 0x42B40000 0x42340000 0)).rmp[0] =
    { valid := true, present := 0, target := 0, inc := 0x5A0000, dec := 0x2D0000, tick := 0x28F } := by decide
/-- RMP-14 -/
theorem test_rmp_init_step : answer (.rmpInit 0) (withArgs 0xFFFF 0x46FFFE00 0 0) = some (0, 0, 0x4006) := by
  decide
/-- RMP-3 -/
theorem test_rmp_sett : (thenCmd (.rmpSett 0) 0xFFA60000 busy).rmp[0].target = 0xFFA60000 := by decide
/-- L1-8 -/
theorem test_rmp_delta_inc : answer (.rmpDelta 0) { busy with arg0 := 0 } = some (0x5A0000, 0, 0) := by decide
/-- RMP-3: target −90.0 from 0 uses the increase rate. -/
theorem test_rmp_delta_negative : answer (.rmpDelta 0) (thenCmd (.rmpSett 0) 0xFFA60000 busy) =
    some (0x5A0000, 0, 0) := by decide
/-- L1-8, the clamped last step up. -/
theorem test_rmp_upd_clamps : answer (.rmpUpd 0) (rampAt { ramp0 with present := 0x59F358 }) =
    some (0x5A0000, 0, 0) := by decide
/-- L1-8 -/
theorem test_rmp_upd : answer (.rmpUpd 0) { busy with arg0 := 0 } = some (0xE646, 0, 0) := by decide
/-- R196 -/
theorem test_rmp_conv : answer (.rmpConv 0) { busy with arg0 := 0 } = some (0, 0, 0) := by decide
/-- RMP-1 -/
theorem test_rmp_rd : answer (.rmpRd 0) { busy with arg0 := 5 } = some (0x28F, 0, 0) := by decide
/-- R197 -/
theorem test_rmp_rd_sel6 : answer (.rmpRd 0) { busy with arg0 := 6 } = some (0, 0, 0x4006) := by decide

/-- A block after a fault: STATUS 0x00004206, RES0 = 3 (45_sys.md R222). -/
def faulty : State := { State.reset with res0 := 3, code := .eArg, sticky := 0b100001 }

/-- SYS-1 with the sticky bits of R222's example. -/
theorem test_nop : answer .sysNop faulty = some (0, 0, 0x00004200) := by decide
/-- SYS-2 -/
theorem test_clrst : answer .sysClrst faulty = some (0, 0, 0) := by decide
/-- SYS-3 -/
theorem test_reset : answer .sysReset faulty = some (0, 0, 0) := by decide

-- The window and the step

/-- The state after one step; the same state where the step stops. -/
def stepped (s : State) : State :=
  match step s with
  | .next t => t
  | _ => s

/-- P5: ID, and STATUS after a fault. -/
theorem test_read_id : (stepped { State.reset with pending := [.read 0x20 4] }).readLog = [0x46584D43] := by
  decide
theorem test_read_status : (stepped { faulty with pending := [.read 0x1C 4] }).readLog = [0x00004206] := by
  decide
theorem test_read_params : (stepped { State.reset with pending := [.read 0x24 4] }).readLog = [0x04040404] := by
  decide
theorem test_write_arg3 : (stepped { State.reset with pending := [.write 0x10 4 7] }).arg3 = 7 := by decide
/-- P5: word 0x00010031 is E_ILLEGAL. -/
theorem test_write_cmd_illegal : (stepped { State.reset with pending := [.write 0 4 0x00010031] }).statusWord =
    0x00000201 := by decide
/-- SYS-4 -/
theorem test_reset_inst_1 : (stepped { faulty with pending := [.write 0 4 0x000001F2] }).res0 = 3 := by decide
theorem test_hardware_reset : (stepped { faulty with pending := [.hardwareReset] }) = State.reset := by decide
theorem test_bus_error_byte : step { State.reset with pending := [.read 0x04 1] } = .fault (.busError 0x04 1) := by
  rfl
theorem test_fetch_word : (stepped (State.withFetchWord (withArgs 3 0xFFFF8000 0 0) 32 5)).res0 = 0xFFFFFFFE := by
  decide
/-- R6, V13: another block, with five MAV copies of capacity 100 and one filter. -/
def otherBlock : Params := { nTmr := 1, nIir := 1, nMav := 5, nRmp := 1, maxWin := 100 }
theorem test_other_block_inst : ∃ t, execFor (.iirRd 1) (State.resetWith otherBlock) = .next t ∧ t.statusWord = 0x402 :=
  ⟨_, rfl, by decide⟩
theorem test_other_block_window : ∃ t, execFor (.mavInit 4) { State.resetWith otherBlock with arg0 := 100 } = .next t ∧
    t.mav[4].win = 100 := ⟨_, rfl, by decide⟩
theorem test_table_word : decodeTableWord 32 0x0000FF11 = some (.tmrDue 255) := by rfl

-- Witnesses: states and operands that meet the hypotheses of each statement

/-- A command ends in a next state. -/
def runs (i : Instr) (s : State) : Bool :=
  match exec i s with
  | .next _ => true
  | _ => false

theorem runs_next {i : Instr} {s : State} (h : runs i s = true) : ∃ t, exec i s = .next t := by
  unfold runs at h
  split at h
  · exact ⟨_, by assumption⟩
  · cases h

/-- `busy` with another copy of each unit meets the invariant when these copies do. -/
theorem withCopies_inv {t : Tmr} {f : Iir} {a : Mav} {r : Rmp} (ht : t.Inv) (hf : f.Inv) (ha : a.Inv 64) (hr : r.Inv) :
    (withCopies t f a r).Inv := by
  have fin4 : ∀ n, n < 4 → n = 0 ∨ n = 1 ∨ n = 2 ∨ n = 3 := by omega
  have ft : Tmr.atReset.Inv := fun _ => rfl
  have ff : Iir.atReset.Inv := ⟨fun _ => rfl, fun _ => rfl⟩
  have fh : (filter0 .highpass).Inv := ⟨nofun, nofun⟩
  have fa : Mav.atReset.Inv 64 := ⟨by decide, fun _ => rfl, nofun⟩
  have fr : Rmp.atReset.Inv := ⟨fun _ => rfl, nofun⟩
  constructor <;> intro n h <;> obtain rfl | rfl | rfl | rfl := fin4 n h
  exacts [ht, ft, ft, ft, hf, fh, ff, ff, ha, fa, fa, fa, hr, fr, fr, fr]

theorem timer0_inv : timer0.Inv := nofun
theorem filter0_inv : (filter0 .lowpass).Inv := ⟨nofun, fun _ => rfl⟩
theorem average0_inv : average0.Inv 64 :=
  ⟨by decide, nofun, fun _ => ⟨by decide, by decide, by decide, by decide, by decide⟩⟩
theorem ramp_inv {r : Rmp} (hv : r.valid = true) (h1 : 0 ≤ s32 r.inc) (h2 : 0 ≤ s32 r.dec) (h3 : 0 ≤ s32 r.tick)
    (h4 : asr (max (s32 r.inc) (s32 r.dec) * s32 r.tick) 16 ≤ 2 ^ 31 - 1) : r.Inv :=
  ⟨fun h => by simp [hv] at h, fun _ => ⟨h1, h2, h3, h4⟩⟩
theorem ramp0_inv : ramp0.Inv := ramp_inv rfl (by decide) (by decide) (by decide) (by decide)
theorem ramp_moved_inv (p t : Word) : Rmp.Inv { ramp0 with present := p, target := t } :=
  ⟨nofun, fun _ => ⟨(ramp0_inv.2 rfl).1, (ramp0_inv.2 rfl).2, (ramp0_inv.2 rfl).3, (ramp0_inv.2 rfl).4⟩⟩
theorem rampAt_inv {r : Rmp} (h : r.Inv) : (rampAt r).Inv := withCopies_inv timer0_inv filter0_inv average0_inv h
theorem busy_inv : busy.Inv := rampAt_inv ramp0_inv
/-- The invariant does not speak of the ARG registers and of the host's side. -/
theorem inv_args {s : State} (h : s.Inv) (a0 a1 : Word) (ops : List HostOp) :
    State.Inv { s with arg0 := a0, arg1 := a1, pending := ops } := ⟨h.1, h.2, h.3, h.4⟩

/-- O1. -/
theorem witness_DecodeOfEncode : (Instr.tmrDue 0).WellFormed ∧ (Instr.mavRd 255).WellFormed ∧ Instr.fxAdd.WellFormed := by
  decide
/-- O2. -/
theorem witness_EncodeOfDecode : decode 0x0000FF1F#32 = .ok (.tmrRd 255) ∧ decode 1#32 = .ok .fxF2x := ⟨rfl, rfl⟩
/-- O3: the ends of every range of the list, and the words beside them. -/
theorem witness_IllegalWordsRaise :
    IllegalWord 0x00010001 ∧ IllegalWord 0 ∧ IllegalWord 0x0C ∧ IllegalWord 0x0F ∧ IllegalWord 0x16 ∧
    IllegalWord 0x1E ∧ IllegalWord 0x23 ∧ IllegalWord 0x2E ∧ IllegalWord 0x32 ∧ IllegalWord 0x3E ∧
    IllegalWord 0x45 ∧ IllegalWord 0x4E ∧ IllegalWord 0x50 ∧ IllegalWord 0xEF ∧ IllegalWord 0xF3 ∧
    IllegalWord 0xFF ∧ IllegalWord 0x101 ∧ IllegalWord 0x10B ∧ IllegalWord 0xFFF0 ∧ IllegalWord 0x1F2 := by
  and_intros <;> unfold IllegalWord <;> simp
/-- O3: the words that are commands at the ends of each unit's codes. -/
theorem witness_IllegalWordsRaise_legal :
    ¬ IllegalWord 1 ∧ ¬ IllegalWord 0x0B ∧ ¬ IllegalWord 0x10 ∧ ¬ IllegalWord 0x15 ∧ ¬ IllegalWord 0x1F ∧
    ¬ IllegalWord 0x22 ∧ ¬ IllegalWord 0x2F ∧ ¬ IllegalWord 0xFF31 ∧ ¬ IllegalWord 0x3F ∧ ¬ IllegalWord 0x44 ∧
    ¬ IllegalWord 0x4F ∧ ¬ IllegalWord 0xF0 ∧ ¬ IllegalWord 0xF2 := by
  and_intros <;> unfold IllegalWord <;> simp
/-- O5. -/
theorem witness_StepPerformsCommand :
    State.pending { busy with pending := [.write 0x00 4 0x10] } = .write 0x00 4 0x10 :: [] ∧
    decode 0x10#32 = .ok (.tmrInit 0) ∧ (Instr.tmrInit 0).WellFormed ∧ decode 0#32 = .error .opcodeUnlisted := by decide
/-- O6, and the checks of O32 to O54: one INST value past the last copy, and the first and the last copy after reset. -/
theorem witness_DecodeChecksInOrder :
    (Instr.tmrDue 0).unit.count = some 4 ∧ (Instr.iirRd 0).unit.count = some 4 ∧
    (Instr.mavStep 0).unit.count = some 4 ∧ (Instr.rmpUpd 0).unit.count = some 4 ∧
    4 ≤ (Instr.tmrDue 4).inst ∧ (Instr.tmrDue 3).inst < 4 ∧ (Instr.tmrDue 3).needsNoConfig = false ∧
    State.reset.copyValid .tmr 0 = false ∧ State.reset.copyValid .tmr 3 = false ∧
    State.reset.copyValid .iir 3 = false ∧ State.reset.copyValid .mav 3 = false ∧
    State.reset.copyValid .rmp 3 = false := by decide
/-- O7: every offset, and the state for each. -/
theorem witness_ReadReturnsRegister :
    ∀ off ∈ [0x00, 0x04, 0x08, 0x0C, 0x10, 0x14, 0x18, 0x1C, 0x20, 0x24, 0x28, 0x2C, 0x3C],
      State.pending { faulty with pending := [.read off 4] } = .read off 4 :: [] ∧ off % 4 = 0 ∧ off < 0x40 := by decide
/-- O9: the ends of the last clause's range beside the five registers. -/
theorem witness_WriteEffects :
    (∀ off ∈ [0x00, 0x04, 0x08, 0x0C, 0x10, 0x14, 0x3C],
      State.pending { busy with pending := [.write off 4 7] } = .write off 4 7 :: []) ∧
    (∀ off ∈ [0x14, 0x3C], off % 4 = 0 ∧ 0x14 ≤ off ∧ off < 0x40) := by decide
/-- O10: each way an access is refused, and the first and the last legal offset. -/
theorem witness_BadAccessIsBusError :
    (∀ a ∈ [(0, 1), (0, 2), (0, 8), (1, 4), (2, 4), (0x40, 4)], (a.2 ≠ 4 ∨ a.1 % 4 ≠ 0 ∨ 0x40 ≤ a.1) ∧
      State.pending { busy with pending := [.read a.1 a.2] } = .read a.1 a.2 :: []) ∧
    (∀ off ∈ [0, 0x3C], off % 4 = 0 ∧ off < 0x40) := by decide
/-- O11. -/
theorem witness_ResetValues : State.pending { busy with pending := [.hardwareReset] } = .hardwareReset :: [] := by decide
/-- O12. -/
theorem witness_SysResetIsHardwareReset : (∃ t, exec .sysReset busy = .next t) ∧
    (Instr.rmpUpd 3).unit.count = some 4 ∧ (Instr.rmpUpd 3).inst < 4 ∧ (Instr.rmpUpd 3).needsNoConfig = false :=
  ⟨runs_next (by decide), by decide⟩
/-- O14: a state that meets the invariant and steps. -/
theorem witness_StepKeepsInvariant :
    State.Inv { busy with arg0 := 5, arg1 := 0, pending := [.write 0 4 0x31] } ∧
    ∃ t, step { busy with arg0 := 5, arg1 := 0, pending := [.write 0 4 0x31] } = .next t :=
  ⟨inv_args busy_inv 5 0 _, _, rfl⟩
/-- O16, O17 (a copy of the command's unit, and one of another). -/
theorem witness_CommandWritesOnlyItsCopy : (∃ t, exec (.tmrDue 0) busy = .next t) ∧ Instr.tmrDue 0 ≠ .sysReset ∧
    1 ≠ (Instr.tmrDue 0).inst ∧ (Instr.tmrDue 0).unit ≠ .iir ∧ (Instr.tmrDue 0).unit ≠ .mav ∧
    (Instr.tmrDue 0).unit ≠ .rmp ∧ (Instr.rmpUpd 0).unit ≠ .tmr :=
  ⟨runs_next (by decide), by decide⟩
/-- O18: two states that agree on TMR copy 0 and differ on every other copy at work. -/
theorem witness_CommandReadsOnlyItsCopy : sameCopy (.tmrDue 0) busy { State.reset with tmr := busy.tmr } ∧
    busy.arg0 = State.reset.arg0 ∧ (∃ t, exec (.tmrDue 0) busy = .next t) ∧
    ∃ t, exec (.tmrDue 0) { State.reset with tmr := busy.tmr } = .next t :=
  ⟨rfl, rfl, runs_next (by decide), runs_next (by decide)⟩
/-- O19: two copies of one unit, and two units. -/
theorem witness_DistinctCopiesCommute : (Instr.iirStep 0).inst ≠ (Instr.iirStep 1).inst ∧
    (Instr.tmrDue 0).unit ≠ (Instr.rmpUpd 0).unit ∧ ∀ i j : Instr, ∃ a b c d, exec i busy = .next a ∧
      exec j a = .next b ∧ exec j busy = .next c ∧ exec i c = .next d := by
  refine ⟨by decide, by decide, fun i j => ?_⟩
  have next : ∀ (i : Instr) (s : State), ∃ t, exec i s = .next t := fun i s => by cases i <;> exact ⟨_, rfl⟩
  obtain ⟨a, ha⟩ := next i busy
  obtain ⟨c, hc⟩ := next j busy
  obtain ⟨b, hb⟩ := next j a
  obtain ⟨d, hd⟩ := next i c
  exact ⟨a, b, c, d, ha, hb, hc, hd⟩
/-- O20 to O23: a command on the copy itself, no writer of the field that the last clauses speak of. -/
theorem witness_FieldWriters : (∃ t, exec (.tmrDue 0) busy = .next t) ∧ (∃ t, exec (.iirRd 0) busy = .next t) ∧
    (∃ t, exec (.mavRd 0) busy = .next t) ∧ (∃ t, exec (.rmpSett 0) busy = .next t) ∧
    Instr.tmrDue 0 ≠ .sysReset ∧ Instr.tmrDue 0 ≠ .tmrInit 0 ∧ Instr.tmrDue 0 ≠ .tmrSetp 0 ∧
    Instr.tmrDue 0 ≠ .tmrStart 0 ∧ Instr.tmrDue 0 ≠ .tmrStop 0 ∧ Instr.tmrSetp 0 ≠ .tmrDue 0 ∧
    Instr.iirRd 0 ≠ .iirInit 0 ∧ Instr.iirRd 0 ≠ .iirInittc 0 ∧ Instr.iirRd 0 ≠ .iirStep 0 ∧
    Instr.mavRd 0 ≠ .mavInit 0 ∧ Instr.mavRd 0 ≠ .mavStep 0 ∧ Instr.rmpSett 0 ≠ .rmpInit 0 ∧
    Instr.rmpSett 0 ≠ .rmpUpd 0 ∧ Instr.rmpUpd 0 ≠ .rmpSett 0 :=
  ⟨runs_next (by decide), runs_next (by decide), runs_next (by decide), runs_next (by decide), by decide⟩
/-- O24: the ends of every class, as (exponent, fraction). -/
theorem witness_FloatClassAndValue :
    (∀ p ∈ [(0x7F800000#32, 255, 0), (0xFF800000#32, 255, 0), (0x7F800001#32, 255, 1), (0x7FFFFFFF#32, 255, 0x7FFFFF),
      (0x80000000#32, 0, 0), (1#32, 0, 1), (0x807FFFFF#32, 0, 0x7FFFFF), (0x00800000#32, 1, 0),
      (0x7F7FFFFF#32, 254, 0x7FFFFF)], p.1.toNat / 2 ^ 23 % 256 = p.2.1 ∧ p.1.toNat % 2 ^ 23 = p.2.2) := by decide
/-- O25: the class hypotheses, and each outcome of the conversion. -/
theorem witness_FxF2xTruncates : f32class 0x7FC00000 = .nan ∧ f32class 0xFF800000 = .infinity ∧
    f32class 0xC7000000 = .normal ∧ f32class 0x47000000 = .normal ∧
    f2x (withArgs 0xC7000000 0 0 0).arg0 = some 0x80000000 ∧ f2x (withArgs 0x47000000 0 0 0).arg0 = none := by decide
/-- O25: −32768.0 gives the least raw value of the fix range. -/
theorem witness_FxF2xTruncates_least : truncRat (f32val 0xC7000000 * 2 ^ 16) = -2 ^ 31 := by
  have hm : f32mant 0xC7000000 = -8388608 := by decide
  have hp : f32pow 0xC7000000 = -8 := by decide
  norm_num [truncRat, f32val, hm, hp]
/-- O25: 32768.0 is the first value above the range. -/
theorem witness_FxF2xTruncates_above : truncRat (f32val 0x47000000 * 2 ^ 16) = 2 ^ 31 := by
  have hm : f32mant 0x47000000 = 8388608 := by decide
  have hp : f32pow 0x47000000 = -8 := by decide
  norm_num [truncRat, f32val, hm, hp]
/-- O29. -/
theorem witness_FxDivTruncates : (withArgs 1 0xFFFFFFFF 0 0).arg1 ≠ 0 ∧ (withArgs 1 0 0 0).arg1 = 0 := by decide
/-- O31: 1.5 (below 256), 256.0, the ends of the integer range, and a quotient. -/
theorem witness_FixLaws : f2x 0x3FC00000 = some 0x00018000 ∧ f2x 0x43800000 = some 0x01000000 ∧
    s32 0xFFFF8000 = -32768 ∧ s32 0x7FFF = 32767 ∧ s32 0x30000 ≠ 0 ∧ (0x10000 : Word) ≠ 0x80000000 ∧
    fxdiv (-0x10000) 0x30000 = some 0xFFFFAAAB := by decide
/-- O31: the two ranges of |f|. -/
theorem witness_FixLaws_ranges : |f32val 0x3FC00000| < 256 ∧ 256 ≤ |f32val 0x43800000| := by
  have h1 : f32mant 0x3FC00000 = 12582912 := by decide
  have h2 : f32pow 0x3FC00000 = -23 := by decide
  have h3 : f32mant 0x43800000 = 8388608 := by decide
  have h4 : f32pow 0x43800000 = -15 := by decide
  norm_num [f32val, h1, h2, h3, h4]
/-- Every selector value stands in some ARG0 (O36, O41, O47, O53). -/
theorem witness_selectors : ∀ x : Word, (withArgs x 0 0 0).arg0 = x := fun _ => rfl
/-- O32 to O36: configured, with a period and without, running and stopped, and a selector past the last. -/
theorem witness_Tmr : busy.tmr[0].valid = true ∧ busy.tmr[0].period ≠ 0 ∧ busy.tmr[0].running = true ∧
    (timerAt { timer0 with period := 0 }).tmr[0].period = 0 ∧
    (timerAt { timer0 with running := false }).tmr[0].valid = true ∧
    (timerAt { timer0 with running := false }).tmr[0].running = false ∧
    5 < (withArgs 6 0 0 0).arg0.toNat := by decide
/-- O37. -/
theorem witness_TmrFiresOncePerBucket : busy.tmr[0].valid = true ∧ busy.tmr[0].period ≠ 0 ∧
    List.Pairwise (fun a b : Word => a.toNat ≤ b.toNat) [0, 5, 10, 10, 25] := by decide
/-- O38, O39, O41: the modes and the first value past them; the selectors and the first past them. -/
theorem witness_IirInit : (withArgs 0 0 0 0).arg0 = 0 ∧ (withArgs 1 0 0 0).arg0 = 1 ∧ 1 < (withArgs 2 0 0 0).arg0.toNat ∧
    4 < (withArgs 5 0 0 0).arg0.toNat := by decide
/-- O40, O42. -/
theorem witness_IirStepFilters : busy.iir[0].valid = true ∧ busy.iir[1].valid = true ∧ busy.iir[0].mode = .lowpass ∧
    busy.iir[1].mode = .highpass ∧ busy.iir[0].tc = busy.iir[1].tc ∧ busy.iir[0].lp = busy.iir[1].lp := by decide
/-- O43, O44: the ends of the range of tc, tc = 1, an estimate below, at and above the input, and a stall. -/
theorem witness_IirNoOvershoot :
    (∀ tc, (filterAt { filter0 .lowpass with tc := tc }).iir[0].valid = true) ∧
    (filterAt { filter0 .lowpass with tc := 0x10000 }).iir[0].tc.toInt = 2 ^ 16 ∧ s32 1 = 1 ∧ s32 0xFFFF < 2 ^ 16 ∧
    s32 busy.arg0 = s32 busy.iir[0].lp ∧ s32 busy.iir[0].lp < s32 (State.arg0 { busy with arg0 := 0x10000 }) ∧
    s32 (State.arg0 { busy with arg0 := 0xFFFF0000 }) < s32 busy.iir[0].lp ∧
    (s32 (State.arg0 { busy with arg0 := 3 }) - s32 busy.iir[0].lp) * s32 busy.iir[0].tc < 2 ^ 16 :=
  ⟨fun _ => rfl, by decide⟩
/-- O43, O44: the greatest difference that does not wrap. -/
theorem witness_IirNoOvershoot_difference :
    |s32 (State.arg0 { busy with arg0 := 0x7FFFFFFF }) - s32 busy.iir[0].lp| < 2 ^ 31 := by
  have e : s32 (State.arg0 { busy with arg0 := 0x7FFFFFFF }) - s32 busy.iir[0].lp = 2147483647 := by decide
  rw [e]; norm_num
/-- O45, O48: the ends of the window's range, and the values beside them. -/
theorem witness_MavInitConstructs : State.Inv { busy with arg0 := 1, arg1 := 7, pending := [] } ∧
    State.Inv { busy with arg0 := 64, arg1 := 7, pending := [] } ∧
    State.Inv { busy with arg0 := 65, arg1 := 7, pending := [] } ∧
    1 ≤ (1#32).toNat ∧ (64#32).toNat ≤ 64 ∧ (0#32).toNat = 0 ∧ 64 < (65#32).toNat :=
  ⟨inv_args busy_inv 1 7 [], inv_args busy_inv 64 7 [], inv_args busy_inv 65 7 [], by decide⟩
/-- O46. -/
theorem witness_MavStepAverages : busy.Inv ∧ busy.mav[0].valid = true := ⟨busy_inv, by decide⟩
/-- O47: the selectors 0 to 4, the first and the last slot, and the selectors beside them. -/
theorem witness_MavRdReadsFields :
    (withArgs 0x100 0 0 0).arg0.toNat = 0x100 + 0 ∧ (withArgs 0x13F 0 0 0).arg0.toNat = 0x100 + 63 ∧
    4 < (5#32).toNat ∧ (5#32).toNat < 0x100 ∧ (0xFF#32).toNat < 0x100 ∧ 0x140 ≤ (0x140#32).toNat := by decide
/-- O49: operands for each check, in its order, and for none (the periods are at the end of the tick's range). -/
theorem witness_RmpInitConstructs : f2x 0x7FC00000 = none ∧ f2x 0x3F800000 = some 0x10000 ∧
    f2x 0xBF800000 = some 0xFFFF0000 ∧ (0xFFFF0000 : Word).toInt < 0 ∧ 0 ≤ (0x10000 : Word).toInt ∧
    (2 : Int) ^ 31 - 1 < ((32768000#32).toNat * 65536 / 1000 : Nat) ∧ (32767999#32).toNat * 65536 / 1000 ≤ 2 ^ 31 - 1 ∧
    f2x 0x46FFFE00 = some 0x7FFF0000 ∧
    (2 : Int) ^ 31 - 1 < (max (0x7FFF0000 : Word).toInt 0 * ((65535#32).toNat * 65536 / 1000 : Nat)).fdiv (2 ^ 16) ∧
    (max (0x10000 : Word).toInt (0x10000 : Word).toInt * ((10#32).toNat * 65536 / 1000 : Nat)).fdiv (2 ^ 16) ≤
      2 ^ 31 - 1 := by
  and_intros <;> decide
/-- O50, O52, O54: (present, target) for every case of the rate, each in a state that meets the invariant. -/
theorem witness_RmpDeltaRate :
    (∀ p : Word × Word, (rampAt { ramp0 with present := p.1, target := p.2 }).Inv) ∧
    (∀ p t : Word, (rampAt { ramp0 with present := p, target := t }).rmp[0].valid = true) ∧
    (7#32).toInt ≠ 0 ∧ (0 < (5#32).toInt ∧ (0xFFFFFFFF#32).toInt < (5#32).toInt) ∧ (5#32).toInt < (7#32).toInt ∧
    ((0xFFFFFFF0#32).toInt < 0 ∧ (0xFFFFFFF0#32).toInt < (5#32).toInt) ∧
    (0xFFFFFF00#32).toInt < (0xFFFFFFF0#32).toInt :=
  ⟨fun p => rampAt_inv (ramp_moved_inv p.1 p.2), fun _ _ => rfl, by decide⟩
/-- O51, O53. -/
theorem witness_Rmp : busy.rmp[0].valid = true ∧
    5 < (withArgs 6 0 0 0).arg0.toNat := by decide
/-- O54: a ramp that moves and one that stands still short of its target. -/
theorem witness_RampConvergesInCeil : busy.Inv ∧ busy.rmp[0].valid = true ∧
    0 < ((rdelta busy.rmp[0]).toInt * busy.rmp[0].tick.toInt).fdiv (2 ^ 16) ∧
    (rampAt { ramp0 with inc := 0 }).Inv ∧ (rampAt { ramp0 with inc := 0 }).rmp[0].valid = true ∧
    ((rdelta (rampAt { ramp0 with inc := 0 }).rmp[0]).toInt * (rampAt { ramp0 with inc := 0 }).rmp[0].tick.toInt).fdiv
      (2 ^ 16) = 0 :=
  ⟨busy_inv, by decide, by decide, rampAt_inv (ramp_inv rfl (by decide) (by decide) (by decide) (by decide)), by decide⟩
/-- O55. -/
theorem witness_SysNopAndClrst : 0 < 1 ∧ 1 < 2 ^ 24 ∧ 0 < 2 ^ 24 - 1 ∧ 2 ^ 24 - 1 < 2 ^ 24 := by decide
/-- The least and the greatest block of R6. -/
def smallest : Params := { nTmr := 1, nIir := 1, nMav := 1, nRmp := 1, maxWin := 1 }
def largest : Params := { nTmr := 255, nIir := 255, nMav := 255, nRmp := 255, maxWin := 65280 }
/-- O59, O60: the ends of the legal ranges, and the interactions of O59's clauses. -/
theorem witness_AnyBlock : smallest.Legal ∧ largest.Legal ∧
    (∀ op : HostOp, State.pending { State.resetWith largest with pending := [op] } = op :: []) :=
  ⟨⟨by decide, by decide, by decide, by decide, by decide⟩, ⟨by decide, by decide, by decide, by decide, by decide⟩,
    fun _ => rfl⟩
theorem largest_inv : (State.resetWith largest).Inv := by
  constructor <;> intro n h <;> simp only [State.resetWith, Vector.getElem_replicate]
  · exact fun _ => rfl
  · exact ⟨fun _ => rfl, fun _ => rfl⟩
  · exact ⟨⟨by simp [Mav.atReset], by simp [Mav.atReset]⟩, fun _ => rfl, nofun⟩
  · exact ⟨fun _ => rfl, nofun⟩
/-- O60: a step from a state that meets the invariant. -/
theorem witness_AnyBlockKeepsInvariant :
    State.Inv { State.resetWith largest with pending := [.write 0x04 4 7] } ∧
    ∃ t, stepFor { State.resetWith largest with pending := [.write 0x04 4 7] } = .next t :=
  ⟨⟨largest_inv.1, largest_inv.2, largest_inv.3, largest_inv.4⟩, _, rfl⟩
/-- O57: INST 4 exists in the greatest block and not in the least; its copy is not configured after reset. -/
theorem witness_CountsDecideInst : (Instr.tmrDue 4).unit.count largest = some 255 ∧
    (Instr.tmrDue 4).unit.count smallest = some 1 ∧ (Instr.tmrDue 4).inst = 4 ∧
    (Instr.tmrDue 4).needsNoConfig = false ∧ (Instr.tmrRd 4).needsNoConfig = true ∧
    busy.copyValid .tmr 0 = true ∧ (State.resetWith smallest).copyValid .tmr 0 = false := by decide
/-- O58: the windows and selectors at the ends of the greatest block's ranges, and those beside them. -/
theorem witness_CapacityBoundsWindow : 254 < largest.nMav ∧ 0 < smallest.nMav ∧
    1 ≤ (1#32).toNat ∧ (65280#32).toNat ≤ largest.maxWin ∧ largest.maxWin < (65281#32).toNat ∧
    65279 < largest.maxWin ∧ (0xFFFF#32).toNat = 0x100 + 65279 ∧
    0x100 + largest.maxWin ≤ (0x00010000#32).toNat := by decide

end Sys2Proof.Tests
end

/-! PROOFS of the statements on the scope (spec 00_scope.md): the machine with the parameters as arguments and the value
of a binary32 pattern. The centre is one lemma per unit, `execFor_…_sound`: a command of the unit is one body run on the
copies it needs, and the body raises an operand fault or answers a copy that meets the unit's invariant again. -/

namespace Sys2Proof.Machine

open Sys2Proof.Config

variable {P : Params}

/-! ### What a command's body on its copy may answer -/

/-- 30_encoding.md R83: the copies a command runs on: every one for a command in NEEDS_NO_CONFIG, else the configured. -/
def readyFor {α : Type} (i : Instr) (valid : α → Bool) (a : α) : Bool := i.needsNoConfig || valid a

/-- What the answer of a command's body on the copy `a` may be: a fault of an operand, or a new copy that keeps `I`. -/
def SoundVerdict {α : Type} (I : α → Prop) (a : α) : Verdict α → Prop
  | .raise c => c = .eFrange ∨ c = .eArg
  | .done new _ _ => I a → I new

@[simp] theorem soundVerdict_raise {α : Type} (I : α → Prop) (a : α) (c : Code) :
    SoundVerdict I a (.raise c) ↔ c = .eFrange ∨ c = .eArg := Iff.rfl

@[simp] theorem soundVerdict_done {α : Type} (I : α → Prop) (a new : α) (r0 r1 : Word) :
    SoundVerdict I a (.done new r0 r1) ↔ (I a → I new) := Iff.rfl

/-- Every answer of the body on a copy that the command runs on is sound. -/
def SoundBody {α : Type} (I : α → Prop) (ready : α → Bool) (body : α → Verdict α) : Prop :=
  ∀ a, ready a = true → SoundVerdict I a (body a)

section Selection

variable {α : Type} {N n : Nat} {I : α → Prop} {copies : Vector α N} {ready : α → Bool} {body : α → Verdict α}

theorem forall_getElem_set (hall : ∀ m (h : m < N), I copies[m]) (hn : n < N) {new : α} (hnew : I new) :
    ∀ m (h : m < N), I (copies.set n new hn)[m] := by
  intro m hm
  rw [Vector.getElem_set]
  split
  · exact hnew
  · exact hall m hm

/-- A sound body keeps the invariant of every copy of its unit. -/
theorem selectCopy_keeps (hb : SoundBody I ready body) (hall : ∀ m (h : m < N), I copies[m]) {new : Vector α N}
    {r0 r1 : Word} (e : selectCopy copies ready n body = .done new r0 r1) : ∀ m (h : m < N), I new[m] := by
  rcases selectCopy_cases copies ready n body with
    ⟨_, he⟩ | ⟨_, _, he⟩ | ⟨_, _, _, _, he⟩ | ⟨hn, hr, a, _, _, ha, he⟩ <;> rw [he] at e <;> cases e
  have hnew : SoundVerdict I copies[n] (body copies[n]) := hb _ hr
  rw [ha, soundVerdict_done] at hnew
  exact forall_getElem_set hall hn (hnew (hall n hn))

/-- R83: the outcome `o` of a command of a unit with `count` copies: E_INST for INST at or above the count, then E_UNCONF
for a copy that the command needs configured and is not, then neither of them. -/
def ChecksCopyFirst (i : Instr) (count : Nat) (s : State P) (o : Host.Outcome (State P) Fault Refusal) : Prop :=
  (count ≤ i.inst → o = .next (s.faulted .eInst)) ∧
  (i.inst < count → i.needsNoConfig = false → s.copyValid i.unit i.inst = false → o = .next (s.faulted .eUnconf)) ∧
  (i.inst < count → (i.needsNoConfig = true ∨ s.copyValid i.unit i.inst = true) →
    ∃ t, o = .next t ∧ t.code ≠ .eInst ∧ t.code ≠ .eUnconf)

theorem commit_selectCopy_checksCopyFirst {i : Instr} {valid : α → Bool} (s : State P) (put : Vector α N → State P)
    (hb : SoundBody I (readyFor i valid) body)
    (hvalid : ∀ h : i.inst < N, s.copyValid i.unit i.inst = valid copies[i.inst]) :
    ChecksCopyFirst i N s (.next (s.commit put (selectCopy copies (readyFor i valid) i.inst body))) := by
  refine ⟨fun h => ?_, fun h hc hv => ?_, fun h hcv => ⟨_, rfl, ?_⟩⟩
  · rw [selectCopy_inst h, commit_raise, raise_eq_faulted s (by decide)]
  · rw [hvalid h] at hv
    rw [selectCopy_unconf h (by simp [readyFor, hc, hv]), commit_raise, raise_eq_faulted s (by decide)]
  · rw [hvalid h] at hcv
    have hr : readyFor i valid copies[i.inst] = true := by simpa [readyFor] using hcv
    have hsound : SoundVerdict I copies[i.inst] (body copies[i.inst]) := hb _ hr
    cases e : body copies[i.inst] with
    | raise c =>
      rw [e, soundVerdict_raise] at hsound
      rw [selectCopy_raise h hr e, commit_raise, State.raise_code]
      rcases hsound with rfl | rfl <;> decide
    | done new r0 r1 =>
      rw [selectCopy_done h hr e, commit_done, State.complete_code]
      decide

end Selection

/-! ### The invariant under the shared operations -/

section KeepsInv

variable {s : State P}

/-- R261: the reset state of a block of any size. -/
theorem resetWith_inv (P : Params) : (State.resetWith P).Inv := by
  constructor <;> intro n h <;> simp only [State.resetWith, Vector.getElem_replicate]
  · exact fun _ => rfl
  · exact ⟨fun _ => rfl, fun _ => rfl⟩
  · exact ⟨⟨List.Pairwise.nil, nofun⟩, fun _ => rfl, nofun⟩
  · exact ⟨fun _ => rfl, nofun⟩

theorem resetBlock_inv (s : State P) : s.resetBlock.Inv :=
  have h := resetWith_inv P
  ⟨h.tmr, h.iir, h.mav, h.rmp⟩

theorem raise_inv (hs : s.Inv) (c : Code) : (s.raise c).Inv := ⟨hs.tmr, hs.iir, hs.mav, hs.rmp⟩

theorem complete_inv (hs : s.Inv) (r0 r1 : Word) : (s.complete r0 r1).Inv := ⟨hs.tmr, hs.iir, hs.mav, hs.rmp⟩

theorem commit_inv {α : Type} {put : α → State P} {v : Verdict α} (hs : s.Inv)
    (hput : ∀ new r0 r1, v = .done new r0 r1 → (put new).Inv) : (s.commit put v).Inv := by
  cases v with
  | raise c => exact raise_inv hs c
  | done new r0 r1 => exact complete_inv (hput new r0 r1 rfl) r0 r1

theorem tmrCommand_inv {ready body} (hs : s.Inv) (hb : SoundBody Tmr.Inv ready body) (n : Nat) :
    (s.tmrCommand ready n body).Inv :=
  commit_inv hs fun _ _ _ e => ⟨selectCopy_keeps hb hs.tmr e, hs.iir, hs.mav, hs.rmp⟩

theorem iirCommand_inv {ready body} (hs : s.Inv) (hb : SoundBody Iir.Inv ready body) (n : Nat) :
    (s.iirCommand ready n body).Inv :=
  commit_inv hs fun _ _ _ e => ⟨hs.tmr, selectCopy_keeps hb hs.iir e, hs.mav, hs.rmp⟩

theorem mavCommand_inv {ready body} (hs : s.Inv) (hb : SoundBody (Mav.Inv P.maxWin) ready body) (n : Nat) :
    (s.mavCommand ready n body).Inv :=
  commit_inv hs fun _ _ _ e => ⟨hs.tmr, hs.iir, selectCopy_keeps hb hs.mav e, hs.rmp⟩

theorem rmpCommand_inv {ready body} (hs : s.Inv) (hb : SoundBody Rmp.Inv ready body) (n : Nat) :
    (s.rmpCommand ready n body).Inv :=
  commit_inv hs fun _ _ _ e => ⟨hs.tmr, hs.iir, hs.mav, selectCopy_keeps hb hs.rmp e⟩

theorem fxCommand_inv (hs : s.Inv) (r : Option Word) (c : Code) : (s.fxCommand r c).Inv := by
  cases r with
  | none => exact raise_inv hs c
  | some v => exact complete_inv hs v 0

end KeepsInv

/-! ### Timers -/

/-- R27: a configured timer meets its invariant whatever its other fields hold. -/
theorem Tmr.inv_of_valid {t : Tmr} (h : t.valid = true) : t.Inv := by simp [Tmr.Inv, h]

theorem tmrInit_sound (period : Word) : SoundBody Tmr.Inv anyCopy (tmrInit period) :=
  fun _ _ _ => Tmr.inv_of_valid rfl

theorem tmrDue_sound (now : Word) : SoundBody Tmr.Inv Tmr.valid (tmrDue now) := by
  intro t hv
  unfold tmrDue
  split
  · exact id
  · exact fun _ => Tmr.inv_of_valid hv

theorem tmrSetp_sound (period : Word) : SoundBody Tmr.Inv Tmr.valid (tmrSetp period) :=
  fun _ hv _ => Tmr.inv_of_valid hv

theorem tmrStart_sound (now : Word) : SoundBody Tmr.Inv Tmr.valid (tmrStart now) :=
  fun _ hv _ => Tmr.inv_of_valid hv

theorem tmrStop_sound (now : Word) : SoundBody Tmr.Inv Tmr.valid (tmrStop now) := by
  intro t hv
  unfold tmrStop
  split
  · exact fun _ => Tmr.inv_of_valid hv
  · exact id

theorem tmrElap_sound (now : Word) : SoundBody Tmr.Inv Tmr.valid (tmrElap now) := fun _ _ => id

theorem tmrRd_sound (sel : Word) : SoundBody Tmr.Inv anyCopy (tmrRd sel) := by
  intro t _
  unfold tmrRd
  split
  · exact id
  · exact .inr rfl

/-- R83, R131 to R137: a TMR command is one sound body, run on the copies it needs. -/
theorem execFor_tmr_sound (i : Instr) (s : State P) (h : i.unit = .tmr) :
    ∃ body, SoundBody Tmr.Inv (readyFor i Tmr.valid) body ∧
      execFor i s = .next (s.tmrCommand (readyFor i Tmr.valid) i.inst body) := by
  cases i <;> cases h
  case tmrInit => exact ⟨_, tmrInit_sound s.arg0, rfl⟩
  case tmrDue => exact ⟨_, tmrDue_sound s.arg0, rfl⟩
  case tmrSetp => exact ⟨_, tmrSetp_sound s.arg0, rfl⟩
  case tmrStart => exact ⟨_, tmrStart_sound s.arg0, rfl⟩
  case tmrStop => exact ⟨_, tmrStop_sound s.arg0, rfl⟩
  case tmrElap => exact ⟨_, tmrElap_sound s.arg0, rfl⟩
  case tmrRd => exact ⟨_, tmrRd_sound s.arg0, rfl⟩

/-! ### Filters -/

/-- R151, R152: construction sets the output of a LOWPASS filter to its estimate. -/
theorem constructedIir_inv (mode : FilterMode) (tc init : Word) : (constructedIir mode tc init).Inv :=
  ⟨nofun, fun h => if_pos h⟩

theorem iirInit_sound (mode freq period init : Word) : SoundBody Iir.Inv anyCopy (iirInit mode freq period init) := by
  intro f _
  unfold iirInit
  split
  · exact .inr rfl
  · split
    · exact .inl rfl
    · exact fun _ => constructedIir_inv _ _ _

theorem iirInittc_sound (mode tc init : Word) : SoundBody Iir.Inv anyCopy (iirInittc mode tc init) := by
  intro f _
  unfold iirInittc
  split
  · exact .inr rfl
  · exact fun _ => constructedIir_inv _ _ _

/-- R153: a LOWPASS step answers the updated estimate. -/
theorem iirStep_sound (x : Word) : SoundBody Iir.Inv Iir.valid (iirStep x) := by
  intro f hv _
  refine ⟨fun h => ?_, fun hm => ?_⟩
  · cases hv.symm.trans h
  · have hm : f.mode = .lowpass := hm
    simp [hm]

theorem iirRd_sound (sel : Word) : SoundBody Iir.Inv anyCopy (iirRd sel) := by
  intro f _
  unfold iirRd
  split
  · exact id
  · exact .inr rfl

/-- R83, R151 to R154: an IIR command is one sound body, run on the copies it needs. -/
theorem execFor_iir_sound (i : Instr) (s : State P) (h : i.unit = .iir) :
    ∃ body, SoundBody Iir.Inv (readyFor i Iir.valid) body ∧
      execFor i s = .next (s.iirCommand (readyFor i Iir.valid) i.inst body) := by
  cases i <;> cases h
  case iirInit => exact ⟨_, iirInit_sound s.arg0 s.arg1 s.arg2 s.arg3, rfl⟩
  case iirInittc => exact ⟨_, iirInittc_sound s.arg0 s.arg1 s.arg3, rfl⟩
  case iirStep => exact ⟨_, iirStep_sound s.arg0, rfl⟩
  case iirRd => exact ⟨_, iirRd_sound s.arg0, rfl⟩

/-! ### Moving averages -/

/-- The sum after one slot takes a new value. -/
theorem slotSum_update {m m' : SampleMemory} {k : Nat} {v : Word}
    (h : ∀ j, bufRead m' j = if j = k then v else bufRead m j) (N : Nat) :
    slotSum m' N = slotSum m N + if k < N then s32 v - s32 (bufRead m k) else 0 := by
  induction N with
  | zero => simp [slotSum]
  | succ N ih =>
    rw [slotSum, slotSum, ih, h N]
    rcases Nat.lt_trichotomy k N with hk | rfl | hk
    · rw [if_pos hk, if_neg (by omega), if_pos (by omega)]; ring
    · simp
    · rw [if_neg (by omega), if_neg (by omega), if_neg (by omega)]; ring

theorem slotSum_const {m : SampleMemory} {v : Word} {N : Nat} (h : ∀ k, k < N → bufRead m k = v) :
    slotSum m N = N * s32 v := by
  induction N with
  | zero => simp [slotSum]
  | succ N ih => rw [slotSum, ih fun k hk => h k (by omega), h N (by omega)]; push_cast; ring

/-- R31: the sum of N samples lies within N times the range of a sample. -/
theorem slotSum_bounds (m : SampleMemory) (N : Nat) : N * -2 ^ 31 ≤ slotSum m N ∧ slotSum m N ≤ N * (2 ^ 31 - 1) := by
  induction N with
  | zero => simp [slotSum]
  | succ N ih =>
    have lo := s32_lower (bufRead m N)
    have hi := s32_upper (bufRead m N)
    rw [slotSum]; push_cast; omega

/-- A mean of values in a range lies in that range. -/
theorem tdiv_bounds {N : Nat} (hN : 0 < N) {lo hi v : Int} (h : N * lo ≤ v ∧ v ≤ N * hi) :
    lo ≤ tdiv v N ∧ tdiv v N ≤ hi := by
  have hpos : (0 : Int) < N := by exact_mod_cast hN
  have mono := And.intro (Int.tdiv_le_tdiv hpos h.1) (Int.tdiv_le_tdiv hpos h.2)
  rwa [Int.mul_tdiv_cancel_left lo hpos.ne', Int.mul_tdiv_cancel_left hi hpos.ne'] at mono

/-- R31: the running sum of at most 2^32 samples fits its 64 bits. -/
theorem s64_wrap64_slotSum (m : SampleMemory) (win : Word) :
    s64 (wrap64 (slotSum m (u32 win))) = slotSum m (u32 win) := by
  have hb := slotSum_bounds m (u32 win)
  have hw := u32_lt win
  apply s64_wrap64 <;> omega

/-- R31: the mean of 32-bit samples fits 32 bits. -/
theorem s32_wrap32_mean (m : SampleMemory) {N : Nat} (hN : 0 < N) :
    s32 (wrap32 (tdiv (slotSum m N) N)) = tdiv (slotSum m N) N :=
  have hb := tdiv_bounds hN (slotSum_bounds m N)
  s32_wrap32 hb.1 hb.2

/-- R171: the product that MAV.INIT stores is the sum of the slots it fills. -/
theorem slotSum_bufFill {capacity : Nat} {m : SampleMemory} (hm : SampleMemory.wf capacity m) (v : Word) {N : Nat}
    (hN : N ≤ capacity) : slotSum (bufFill capacity m v N) N = N * s32 v :=
  slotSum_const fun k hk => by rw [bufRead_bufFill hm v hN, if_pos hk]

/-- R172: the sum without the evicted sample and with the new one is the sum of the window afterwards. -/
theorem slotSum_mavStep {capacity : Nat} {a : Mav} (hm : SampleMemory.wf capacity a.buf) (ha : a.Configured capacity)
    (x : Word) : slotSum (bufWrite capacity a.buf (u32 a.cursor) x) (u32 a.win) = mavSum a x := by
  have hc : u32 a.cursor < capacity := by have := ha.cursorLt; have := ha.winMax; omega
  rw [slotSum_update (bufRead_bufWrite hm hc x), if_pos ha.cursorLt, mavSum, ha.sumExact]
  ring

theorem mavInit_sound (capacity : Nat) (win fill : Word) :
    SoundBody (Mav.Inv capacity) anyCopy (mavInit capacity win fill) := by
  intro a _
  unfold mavInit
  split
  · exact .inr rfl
  next hw =>
    intro ha
    obtain ⟨hpos, hmax⟩ : u32 win ≠ 0 ∧ u32 win ≤ capacity := by simpa using hw
    have hsum := slotSum_bufFill ha.bufWf fill hmax
    have hs64 : s64 (wrap64 (u32 win * s32 fill)) = u32 win * s32 fill := hsum ▸ s64_wrap64_slotSum _ win
    refine ⟨bufFill_wf fill _ ha.bufWf, nofun, fun _ => ⟨?_, hmax, ?_, ?_, ?_⟩⟩
    · exact Nat.pos_of_ne_zero hpos
    · exact Nat.pos_of_ne_zero hpos
    · exact hs64.trans hsum.symm
    · rw [hs64]
      exact (Int.mul_tdiv_cancel_left _ (by exact_mod_cast hpos)).symm

theorem mavStep_sound (capacity : Nat) (x : Word) : SoundBody (Mav.Inv capacity) Mav.valid (mavStep capacity x) := by
  intro a hv ha
  have hc := ha.configured hv
  have hpos : 0 < u32 a.win := hc.winPos
  have hsum := slotSum_mavStep ha.bufWf hc x
  have hs64 : s64 (wrap64 (mavSum a x)) = mavSum a x := hsum ▸ s64_wrap64_slotSum _ a.win
  have hcur : (u32 a.cursor + 1) % u32 a.win < u32 a.win := Nat.mod_lt _ hpos
  refine ⟨bufWrite_wf _ x ha.bufWf, fun h => ?_, fun _ => ⟨hc.winPos, hc.winMax, ?_, hs64.trans hsum.symm, ?_⟩⟩
  · cases hv.symm.trans h
  · have hw := u32_lt a.win
    simpa only [u32_ofU32 (hcur.trans hw)] using hcur
  · rw [hs64, ← hsum]
    exact s32_wrap32_mean _ hpos

theorem mavRd_sound (capacity : Nat) (sel : Word) : SoundBody (Mav.Inv capacity) anyCopy (mavRd capacity sel) := by
  intro a _
  unfold mavRd
  split
  · exact id
  · exact .inr rfl

/-- R83, R171 to R173: a MAV command is one sound body, run on the copies it needs. -/
theorem execFor_mav_sound (i : Instr) (s : State P) (h : i.unit = .mav) :
    ∃ body, SoundBody (Mav.Inv P.maxWin) (readyFor i Mav.valid) body ∧
      execFor i s = .next (s.mavCommand (readyFor i Mav.valid) i.inst body) := by
  cases i <;> cases h
  case mavInit => exact ⟨_, mavInit_sound P.maxWin s.arg0 s.arg1, rfl⟩
  case mavStep => exact ⟨_, mavStep_sound P.maxWin s.arg0, rfl⟩
  case mavRd => exact ⟨_, mavRd_sound P.maxWin s.arg0, rfl⟩

/-! ### Ramps -/

/-- R33 speaks of the rates and the tick alone: a configured ramp may change its present and target values. -/
theorem Rmp.Inv.moved {r : Rmp} (hr : r.Inv) (hv : r.valid = true) (present target : Word) :
    Rmp.Inv { r with present := present, target := target } :=
  have hc := hr.configured hv
  ⟨fun h => (by cases hv.symm.trans h), fun _ => ⟨hc.incNonneg, hc.decNonneg, hc.tickNonneg, hc.stepFits⟩⟩

theorem s32_ofU32 {v : Nat} (h : v ≤ 2 ^ 31 - 1) : s32 (ofU32 v) = v := by
  rw [ofU32, ← BitVec.ofInt_natCast]
  exact s32_wrap32 (by omega) (by omega)

/-- R191: the checks of RMP.INIT are what R33 asks of a configured ramp. -/
theorem rmpInit_sound (period incRate decRate : Word) : SoundBody Rmp.Inv anyCopy (rmpInit period incRate decRate) := by
  intro r _
  unfold rmpInit
  split
  · exact .inl rfl
  next i _ =>
    split
    · exact .inl rfl
    next d _ =>
      dsimp only
      split_ifs with hneg htick hstep
      · exact .inr rfl
      · exact .inr rfl
      · exact .inr rfl
      obtain ⟨hi, hd⟩ : 0 ≤ s32 i ∧ 0 ≤ s32 d := by omega
      have ht := s32_ofU32 (Nat.le_of_not_lt htick)
      exact fun _ => ⟨nofun, fun _ => ⟨hi, hd, by simp only [ht]; omega, by simp only [ht]; omega⟩⟩

theorem rmpSett_sound (value : Word) : SoundBody Rmp.Inv Rmp.valid (rmpSett value) :=
  fun r hv hr => hr.moved hv r.present value

theorem rmpDelta_sound : SoundBody Rmp.Inv Rmp.valid rmpDelta := fun _ _ => id

theorem rmpUpd_sound : SoundBody Rmp.Inv Rmp.valid rmpUpd :=
  fun r hv hr => hr.moved hv (wrap32 (rampNext r)) r.target

theorem rmpConv_sound : SoundBody Rmp.Inv Rmp.valid rmpConv := fun _ _ => id

theorem rmpRd_sound (sel : Word) : SoundBody Rmp.Inv anyCopy (rmpRd sel) := by
  intro r _
  unfold rmpRd
  split
  · exact id
  · exact .inr rfl

/-- R83, R191 to R197: an RMP command is one sound body, run on the copies it needs. -/
theorem execFor_rmp_sound (i : Instr) (s : State P) (h : i.unit = .rmp) :
    ∃ body, SoundBody Rmp.Inv (readyFor i Rmp.valid) body ∧
      execFor i s = .next (s.rmpCommand (readyFor i Rmp.valid) i.inst body) := by
  cases i <;> cases h
  case rmpInit => exact ⟨_, rmpInit_sound s.arg0 s.arg1 s.arg2, rfl⟩
  case rmpSett => exact ⟨_, rmpSett_sound s.arg0, rfl⟩
  case rmpDelta => exact ⟨_, rmpDelta_sound, rfl⟩
  case rmpUpd => exact ⟨_, rmpUpd_sound, rfl⟩
  case rmpConv => exact ⟨_, rmpConv_sound, rfl⟩
  case rmpRd => exact ⟨_, rmpRd_sound s.arg0, rfl⟩

/-! ### The invariant under commands and steps -/

section StepInv

variable {s t : State P}

/-- R28 to R33: every command of a block of any size keeps the invariant. -/
theorem execFor_inv {i : Instr} (hs : s.Inv) (h : execFor i s = .next t) : t.Inv := by
  cases hu : i.unit with
  | fx =>
    obtain ⟨r, c, -, e⟩ := execFor_fx_shape i s hu
    cases (e s (sameArgs_refl s)).symm.trans h
    exact fxCommand_inv hs r c
  | tmr =>
    obtain ⟨body, hb, e⟩ := execFor_tmr_sound i s hu
    cases e.symm.trans h
    exact tmrCommand_inv hs hb _
  | iir =>
    obtain ⟨body, hb, e⟩ := execFor_iir_sound i s hu
    cases e.symm.trans h
    exact iirCommand_inv hs hb _
  | mav =>
    obtain ⟨body, hb, e⟩ := execFor_mav_sound i s hu
    cases e.symm.trans h
    exact mavCommand_inv hs hb _
  | rmp =>
    obtain ⟨body, hb, e⟩ := execFor_rmp_sound i s hu
    cases e.symm.trans h
    exact rmpCommand_inv hs hb _
  | sys =>
    cases i <;> cases hu <;> cases h
    · exact complete_inv hs 0 0
    · exact ⟨hs.tmr, hs.iir, hs.mav, hs.rmp⟩
    · exact resetBlock_inv s

/-- R64: a write to a register keeps the invariant. -/
theorem writeRegBy_execFor_inv {r : WindowReg} {v : Word} (hs : s.Inv) (h : s.writeRegBy execFor r v = .next t) :
    t.Inv := by
  cases r
  case cmd =>
    rw [State.writeRegBy, performCommandBy] at h
    split at h
    · exact execFor_inv hs h
    · cases h
      exact raise_inv hs _
  all_goals
    cases h
    exact ⟨hs.tmr, hs.iir, hs.mav, hs.rmp⟩

/-- R245: an interaction with the outside world keeps the invariant. -/
theorem performOpBy_execFor_inv {op : HostOp} (hs : s.Inv) (h : performOpBy execFor op s = .next t) : t.Inv := by
  cases op with
  | write off n v =>
    rw [performOpBy] at h
    split at h
    · exact writeRegBy_execFor_inv hs h
    · cases h
  | read off n =>
    rw [performOpBy] at h
    split at h
    · cases h
      exact ⟨hs.tmr, hs.iir, hs.mav, hs.rmp⟩
    · cases h
  | hardwareReset =>
    cases h
    exact resetBlock_inv s

theorem stepFor_inv (hs : s.Inv) (h : stepFor s = .next t) : t.Inv := by
  rcases stepBy_cases execFor s with ⟨_, e⟩ | ⟨op, later, _, e⟩
  · cases e.symm.trans h
    exact hs
  · exact performOpBy_execFor_inv (s := { s with pending := later }) ⟨hs.tmr, hs.iir, hs.mav, hs.rmp⟩ (e.symm.trans h)

end StepInv

/-- Settles O60: reset meets the invariant and every step keeps it, by the body of each command on its copy. -/
theorem anyBlockKeepsInvariant : Obligations.AnyBlockKeepsInvariant :=
  fun P _ => ⟨resetWith_inv P, fun _ _ hs h => stepFor_inv hs h⟩

/-! ### The fields and the value of a binary32 pattern -/

section Float

variable (w : Word)

theorem f32exp_eq : f32exp w = w.toNat / 2 ^ 23 % 256 := by
  rw [f32exp, BitVec.extractLsb'_toNat, Nat.shiftRight_eq_div_pow]

theorem f32frac_eq : f32frac w = w.toNat % 2 ^ 23 := by
  rw [f32frac, BitVec.extractLsb'_toNat, Nat.shiftRight_zero]

theorem f32sign_eq : f32sign w = decide (w.toNat / 2 ^ 31 = 1) := by
  have hw := w.isLt
  rw [f32sign, BitVec.getLsbD, Nat.testBit_eq_decide_div_mod_eq, Nat.mod_eq_of_lt (by omega)]

/-- R12: the sign field scales the significand by 1 or -1. -/
theorem f32mant_eq : f32mant w =
    (-1) ^ (w.toNat / 2 ^ 31) * ((if f32exp w = 0 then f32frac w else 2 ^ 23 + f32frac w : Nat) : Int) := by
  have hw := w.isLt
  obtain h | h : w.toNat / 2 ^ 31 = 0 ∨ w.toNat / 2 ^ 31 = 1 := by omega
  · rw [f32mant, f32sign_eq, h]
    simp
  · rw [f32mant, f32sign_eq, h]
    simp only [decide_true, if_true, pow_one, neg_one_mul]

/-- The 23 fraction bits moved from the significand to the power of two. -/
theorem two_zpow_sub_150 (e : ℤ) : (2 : ℚ) ^ (e - 150) = 2 ^ (e - 127) / 2 ^ 23 := by
  rw [show e - 150 = e - 127 - 23 by ring, zpow_sub₀ two_ne_zero]
  rfl

/-- R12: a pattern with exponent 0 has no leading 1. -/
theorem f32val_of_exp_zero (h : f32exp w = 0) :
    f32val w = (-1) ^ (w.toNat / 2 ^ 31) * ((f32frac w : ℚ) / 2 ^ 23) * 2 ^ (-126 : ℤ) := by
  rw [f32val, f32mant_eq, f32pow, if_pos h, if_pos h, two_zpow_sub_150]
  push_cast
  ring

/-- R12: any other pattern has a leading 1. -/
theorem f32val_of_exp_ne_zero (h : f32exp w ≠ 0) :
    f32val w = (-1) ^ (w.toNat / 2 ^ 31) * (1 + (f32frac w : ℚ) / 2 ^ 23) * 2 ^ ((f32exp w : ℤ) - 127) := by
  rw [f32val, f32mant_eq, f32pow, if_neg h, if_neg h, two_zpow_sub_150]
  push_cast
  ring

end Float

/-- Settles O24: each class by its fields, and each value by the two forms of the significand. -/
theorem floatClassAndValue : Obligations.FloatClassAndValue := by
  rintro w _ exp frac rfl hexp hfrac
  rw [← f32exp_eq] at hexp
  rw [← f32frac_eq] at hfrac
  subst hexp hfrac
  refine ⟨fun he hf => ?_, fun he hf => ?_, fun he hf => ?_, fun he hf => ?_, fun he he' => ?_⟩
  · simp [f32class, he, hf]
  · simp [f32class, he, hf]
  · exact ⟨by simp [f32class, he, hf], by simp [f32val_of_exp_zero w he, hf]⟩
  · exact ⟨by simp [f32class, he, hf], f32val_of_exp_zero w he⟩
  · exact ⟨by simp [f32class, he.ne', he'.ne], f32val_of_exp_ne_zero w he.ne'⟩

/-! ### The parameters as arguments -/

/-- Settles O56: `exec` and `step` are the parameterised machine by the arms of `exec`. -/
theorem blockIsAnInstance : Obligations.BlockIsAnInstance :=
  ⟨⟨by decide, by decide, by decide, by decide, by decide⟩, rfl, fun i s => by rw [exec_eq_execFor],
    fun s => by rw [step_eq_stepFor], rfl⟩

/-- Settles O57: the checks of the copy's selection come first, and the bodies raise operand faults only. -/
theorem countsDecideInst : Obligations.CountsDecideInst := by
  intro P i s count hcount
  change ChecksCopyFirst i count s (execFor i s)
  cases hu : i.unit <;> rw [hu] at hcount <;> cases hcount
  case tmr =>
    obtain ⟨body, hb, e⟩ := execFor_tmr_sound i s hu
    exact e ▸ commit_selectCopy_checksCopyFirst s _ hb fun h => by simp [State.copyValid, hu, h]
  case iir =>
    obtain ⟨body, hb, e⟩ := execFor_iir_sound i s hu
    exact e ▸ commit_selectCopy_checksCopyFirst s _ hb fun h => by simp [State.copyValid, hu, h]
  case mav =>
    obtain ⟨body, hb, e⟩ := execFor_mav_sound i s hu
    exact e ▸ commit_selectCopy_checksCopyFirst s _ hb fun h => by simp [State.copyValid, hu, h]
  case rmp =>
    obtain ⟨body, hb, e⟩ := execFor_rmp_sound i s hu
    exact e ▸ commit_selectCopy_checksCopyFirst s _ hb fun h => by simp [State.copyValid, hu, h]

section Capacity

variable {capacity : Nat}

/-- R171: a window from 1 to the capacity is taken. -/
theorem mavInit_done {win : Word} (fill : Word) (a : Mav) (lo : 1 ≤ u32 win) (hi : u32 win ≤ capacity) :
    mavInit capacity win fill a = .done
      { valid := true, win := win, cursor := 0, sum := wrap64 ((u32 win : Int) * s32 fill), out := fill,
        buf := bufFill capacity a.buf fill (u32 win) } 0 0 :=
  if_neg (by omega)

/-- R171: no other window is. -/
theorem mavInit_raise {win : Word} (fill : Word) (a : Mav) (h : u32 win = 0 ∨ capacity < u32 win) :
    mavInit capacity win fill a = .raise .eArg :=
  if_pos h

/-- R173: above selector 4 only the slots below the capacity have one. -/
theorem mavField_of_four_lt {sel : Nat} (a : Mav) (h : 4 < sel) : mavField capacity sel a =
    if 0x100 ≤ sel ∧ sel < 0x100 + capacity then some (bufRead a.buf (sel - 0x100), 0) else none := by
  unfold mavField
  split
  iterate 5 omega
  rfl

theorem mavRd_slot {sel : Word} {k : Nat} (a : Mav) (hk : k < capacity) (h : u32 sel = 0x100 + k) :
    mavRd capacity sel a = .done a (bufRead a.buf k) 0 := by
  rw [mavRd, h, mavField_of_four_lt a (by omega), if_pos (by omega), Nat.add_sub_cancel_left]

theorem mavRd_above {sel : Word} (a : Mav) (h : 0x100 + capacity ≤ u32 sel) :
    mavRd capacity sel a = .raise .eArg := by
  rw [mavRd, mavField_of_four_lt a (by omega), if_neg (by omega)]

end Capacity

/-- A command that answers its copy as it was changes RES and STATUS only. -/
theorem mavCommand_same {P : Params} (s : State P) {ready : Mav → Bool} {n : Nat} {body : Mav → Verdict Mav}
    (h : n < P.nMav) (hr : ready s.mav[n] = true) {r0 r1 : Word} (hb : body s.mav[n] = .done s.mav[n] r0 r1) :
    s.mavCommand ready n body = s.completed r0 r1 := by
  rw [mavCommand_done s ready n body h hr hb, Vector.set_getElem_self]
  rfl

/-- Settles O58: the windows that MAV.INIT takes and the slots that MAV.RD reads are those of the capacity. -/
theorem capacityBoundsWindow : Obligations.CapacityBoundsWindow := by
  intro P n h s
  refine ⟨fun lo hi => ⟨_, rfl, ?_⟩, fun hw => congrArg Host.Outcome.next ?_,
    fun k hk hsel => congrArg Host.Outcome.next ?_, fun hsel => congrArg Host.Outcome.next ?_⟩
  · rw [mavCommand_done s _ n _ h rfl (mavInit_done s.arg1 s.mav[n] lo hi)]
    simp
  · rw [mavCommand_raise s _ n _ h rfl (mavInit_raise s.arg1 s.mav[n] hw), raise_eq_faulted s (by decide)]
  · exact mavCommand_same s h rfl (mavRd_slot s.mav[n] hk hsel)
  · rw [mavCommand_raise s _ n _ h rfl (mavRd_above s.mav[n] hsel), raise_eq_faulted s (by decide)]

end Sys2Proof.Machine

/-! PROOFS of the statements on the state (spec 10_state.md). The centre is `execFor_updates`: but for RES and STATUS,
every command other than SYS.RESET is one update of the copy that INST selects, which the ARG registers alone fix and
which leaves the other units as they are. What a command keeps, reads and commutes with follows from it. -/

namespace Sys2Proof.Machine

open Sys2Proof.Config

variable {P : Params}

/-- Settles O14: the step of this block is that of any block, which keeps the invariant. -/
theorem stepKeepsInvariant : Obligations.StepKeepsInvariant :=
  fun _ _ hs h => stepFor_inv hs (step_eq_stepFor ▸ h)

/-! ### One copy of a unit updated -/

section UpdateCopy

variable {α : Type} {N : Nat}

/-- The copies of a unit with `g` applied to copy `n`, where there is one. -/
def updateCopy (n : Nat) (g : α → α) (copies : Vector α N) : Vector α N :=
  copies.mapIdx fun m a => if m = n then g a else a

variable {n m : Nat} {g k : α → α} {copies : Vector α N}

@[simp] theorem getElem_updateCopy (h : m < N) :
    (updateCopy n g copies)[m] = if m = n then g copies[m] else copies[m] := by
  simp [updateCopy]

@[simp] theorem getElem?_updateCopy_self : (updateCopy n g copies)[n]? = copies[n]?.map g := by
  simp [updateCopy]

@[simp] theorem updateCopy_id : updateCopy n id copies = copies := by
  ext m h; simp

theorem updateCopy_of_le (h : N ≤ n) : updateCopy n g copies = copies := by
  ext m hm
  rw [getElem_updateCopy, if_neg (by omega)]

theorem updateCopy_of_lt (h : n < N) : updateCopy n g copies = copies.set n (g copies[n]) := by
  ext m hm
  by_cases hmn : m = n
  · subst hmn; simp
  · simp [hmn, Ne.symm hmn]

/-- R36: a copy that is not selected, and every copy of a unit that is not, stays. -/
theorem getElem_updateCopy_of_other (h : m < N) (hother : g = id ∨ m ≠ n) :
    (updateCopy n g copies)[m] = copies[m] := by
  rcases hother with rfl | hne
  · rw [updateCopy_id]
  · rw [getElem_updateCopy, if_neg hne]

theorem updateCopy_comm (hother : n ≠ m ∨ g = id ∨ k = id) :
    updateCopy m k (updateCopy n g copies) = updateCopy n g (updateCopy m k copies) := by
  rcases hother with hne | rfl | rfl
  · ext j hj
    by_cases hj : j = n
    · subst hj; simp [hne]
    · simp [hj]
  · simp only [updateCopy_id]
  · simp only [updateCopy_id]

/-- The copies after a verdict: as they were, if it raises a code. -/
def Verdict.after (old : α) : Verdict α → α
  | .raise _ => old
  | .done new _ _ => new

/-- 30_encoding.md R83: the copy after a command of its unit that selects it. -/
def copyAfter (ready : α → Bool) (body : α → Verdict α) (a : α) : α :=
  if ready a then (body a).after a else a

/-- R83: the selection updates the selected copy and no other. -/
theorem selectCopy_after (copies : Vector α N) (ready : α → Bool) (n : Nat) (body : α → Verdict α) :
    (selectCopy copies ready n body).after copies = updateCopy n (copyAfter ready body) copies := by
  rcases selectCopy_cases copies ready n body with
    ⟨hn, e⟩ | ⟨hn, hr, e⟩ | ⟨hn, hr, c, hb, e⟩ | ⟨hn, hr, new, r0, r1, hb, e⟩ <;> rw [e]
  · exact (updateCopy_of_le hn).symm
  · simp [Verdict.after, updateCopy_of_lt hn, copyAfter, hr]
  · simp [Verdict.after, updateCopy_of_lt hn, copyAfter, hr, hb]
  · simp [Verdict.after, updateCopy_of_lt hn, copyAfter, hr, hb]

end UpdateCopy

/-! ### What a command does to all but RES and STATUS -/

/-- What a command does to one copy of each unit: `id` for the units it leaves as they are. -/
structure CopyUpdate where
  tmr : Tmr → Tmr := id
  iir : Iir → Iir := id
  mav : Mav → Mav := id
  rmp : Rmp → Rmp := id

/-- The update made on copy `n`. -/
def CopyUpdate.apply (E : CopyUpdate) (n : Nat) (s : State P) : State P :=
  { s with tmr := updateCopy n E.tmr s.tmr, iir := updateCopy n E.iir s.iir,
           mav := updateCopy n E.mav s.mav, rmp := updateCopy n E.rmp s.rmp }

/-- The update leaves every unit but `u` as it is. -/
structure CopyUpdate.Within (E : CopyUpdate) (u : CommandUnit) : Prop where
  tmr : u ≠ .tmr → E.tmr = id
  iir : u ≠ .iir → E.iir = id
  mav : u ≠ .mav → E.mav = id
  rmp : u ≠ .rmp → E.rmp = id

/-- The state without the registers that tell a command's outcome (R22, R23): RES and STATUS at 0. -/
def State.sansOutcome (s : State P) : State P := { s with res0 := 0, res1 := 0, code := .ok, sticky := 0 }

section SansOutcome

variable (s : State P)

theorem raise_sansOutcome (c : Code) : (s.raise c).sansOutcome = s.sansOutcome := rfl

theorem complete_sansOutcome (r0 r1 : Word) : (s.complete r0 r1).sansOutcome = s.sansOutcome := rfl

theorem fxCommand_sansOutcome (r : Option Word) (c : Code) : (s.fxCommand r c).sansOutcome = s.sansOutcome := by
  rcases fxCommand_cases s r c with ⟨-, e⟩ | ⟨v, -, e⟩ <;> rw [e]
  · exact raise_sansOutcome s c
  · exact complete_sansOutcome s v 0

/-- R14: a command that raises a code puts nothing. -/
theorem commit_sansOutcome {α : Type} {put : α → State P} {old : α} (hold : put old = s) (v : Verdict α) :
    (s.commit put v).sansOutcome = (put (v.after old)).sansOutcome := by
  subst hold
  cases v <;> rfl

theorem tmrCommand_sansOutcome (ready : Tmr → Bool) (n : Nat) (body : Tmr → Verdict Tmr) :
    (s.tmrCommand ready n body).sansOutcome =
      (CopyUpdate.apply { tmr := copyAfter ready body } n s).sansOutcome := by
  rw [State.tmrCommand, commit_sansOutcome s (old := s.tmr) rfl, selectCopy_after]
  simp [CopyUpdate.apply]

theorem iirCommand_sansOutcome (ready : Iir → Bool) (n : Nat) (body : Iir → Verdict Iir) :
    (s.iirCommand ready n body).sansOutcome =
      (CopyUpdate.apply { iir := copyAfter ready body } n s).sansOutcome := by
  rw [State.iirCommand, commit_sansOutcome s (old := s.iir) rfl, selectCopy_after]
  simp [CopyUpdate.apply]

theorem mavCommand_sansOutcome (ready : Mav → Bool) (n : Nat) (body : Mav → Verdict Mav) :
    (s.mavCommand ready n body).sansOutcome =
      (CopyUpdate.apply { mav := copyAfter ready body } n s).sansOutcome := by
  rw [State.mavCommand, commit_sansOutcome s (old := s.mav) rfl, selectCopy_after]
  simp [CopyUpdate.apply]

theorem rmpCommand_sansOutcome (ready : Rmp → Bool) (n : Nat) (body : Rmp → Verdict Rmp) :
    (s.rmpCommand ready n body).sansOutcome =
      (CopyUpdate.apply { rmp := copyAfter ready body } n s).sansOutcome := by
  rw [State.rmpCommand, commit_sansOutcome s (old := s.rmp) rfl, selectCopy_after]
  simp [CopyUpdate.apply]

end SansOutcome

section OfSansOutcome

variable {s t : State P} {E : CopyUpdate} {n : Nat}

/-- The copies of every unit after an update. -/
theorem copies_of_sansOutcome (e : t.sansOutcome = (E.apply n s).sansOutcome) :
    t.tmr = updateCopy n E.tmr s.tmr ∧ t.iir = updateCopy n E.iir s.iir ∧
    t.mav = updateCopy n E.mav s.mav ∧ t.rmp = updateCopy n E.rmp s.rmp :=
  ⟨congrArg State.tmr e, congrArg State.iir e, congrArg State.mav e, congrArg State.rmp e⟩

/-- R21: an update leaves the ARG registers. -/
theorem sameArgs_of_sansOutcome (e : t.sansOutcome = (E.apply n s).sansOutcome) : SameArgs s t :=
  ⟨(congrArg State.arg0 e).symm, (congrArg State.arg1 e).symm, (congrArg State.arg2 e).symm,
    (congrArg State.arg3 e).symm⟩

/-- An update leaves what belongs to the host. -/
theorem host_of_sansOutcome (e : t.sansOutcome = (E.apply n s).sansOutcome) :
    t.pending = s.pending ∧ t.readLog = s.readLog :=
  ⟨(congrArg State.pending e :), (congrArg State.readLog e :)⟩

end OfSansOutcome

@[simp] theorem CopyUpdate.apply_none (n : Nat) (s : State P) : CopyUpdate.apply {} n s = s := by
  simp [CopyUpdate.apply]

/-- R36, R21: but for RES and STATUS, every command other than SYS.RESET is an update of the copy it selects, the same
update in every state with these ARG registers. -/
theorem execFor_updates {i : Instr} (s : State P) (h : i ≠ .sysReset) : ∃ E : CopyUpdate, E.Within i.unit ∧
    ∀ s' t, SameArgs s s' → execFor i s' = .next t → t.sansOutcome = (E.apply i.inst s').sansOutcome := by
  cases hu : i.unit with
  | fx =>
    obtain ⟨r, c, -, e⟩ := execFor_fx_shape i s hu
    refine ⟨{}, ⟨fun _ => rfl, fun _ => rfl, fun _ => rfl, fun _ => rfl⟩, fun s' t hs ht => ?_⟩
    cases (e s' hs).symm.trans ht
    rw [CopyUpdate.apply_none, fxCommand_sansOutcome]
  | tmr =>
    obtain ⟨ready, body, -, e⟩ := execFor_tmr_shape i s hu
    refine ⟨{ tmr := copyAfter ready body }, ⟨(absurd rfl ·), fun _ => rfl, fun _ => rfl, fun _ => rfl⟩,
      fun s' t hs ht => ?_⟩
    cases (e s' hs).symm.trans ht
    exact tmrCommand_sansOutcome s' ready i.inst body
  | iir =>
    obtain ⟨ready, body, -, e⟩ := execFor_iir_shape i s hu
    refine ⟨{ iir := copyAfter ready body }, ⟨fun _ => rfl, (absurd rfl ·), fun _ => rfl, fun _ => rfl⟩,
      fun s' t hs ht => ?_⟩
    cases (e s' hs).symm.trans ht
    exact iirCommand_sansOutcome s' ready i.inst body
  | mav =>
    obtain ⟨ready, body, -, e⟩ := execFor_mav_shape i s hu
    refine ⟨{ mav := copyAfter ready body }, ⟨fun _ => rfl, fun _ => rfl, (absurd rfl ·), fun _ => rfl⟩,
      fun s' t hs ht => ?_⟩
    cases (e s' hs).symm.trans ht
    exact mavCommand_sansOutcome s' ready i.inst body
  | rmp =>
    obtain ⟨ready, body, -, e⟩ := execFor_rmp_shape i s hu
    refine ⟨{ rmp := copyAfter ready body }, ⟨fun _ => rfl, fun _ => rfl, fun _ => rfl, (absurd rfl ·)⟩,
      fun s' t hs ht => ?_⟩
    cases (e s' hs).symm.trans ht
    exact rmpCommand_sansOutcome s' ready i.inst body
  | sys =>
    refine ⟨{}, ⟨fun _ => rfl, fun _ => rfl, fun _ => rfl, fun _ => rfl⟩, fun s' t _ ht => ?_⟩
    rw [CopyUpdate.apply_none]
    cases i <;> cases hu <;> cases ht
    · rfl
    · rfl
    · exact absurd rfl h

/-- Settles O16: the update of copies leaves the ARG registers and the host's side; SYS.RESET leaves the latter. -/
theorem commandsKeepArgs : Obligations.CommandsKeepArgs := by
  intro i s t h
  rw [exec_eq_execFor] at h
  by_cases hi : i = .sysReset
  · subst hi
    cases h
    exact ⟨absurd rfl, rfl, rfl⟩
  · obtain ⟨E, -, update⟩ := execFor_updates s hi
    have e := update s t (sameArgs_refl s) h
    obtain ⟨h0, h1, h2, h3⟩ := sameArgs_of_sansOutcome e
    exact ⟨fun _ => ⟨h0.symm, h1.symm, h2.symm, h3.symm⟩, host_of_sansOutcome e⟩

/-- Settles O17: the update leaves the other units, and the other copies of its own. -/
theorem commandWritesOnlyItsCopy : Obligations.CommandWritesOnlyItsCopy := by
  intro i s t hi h
  rw [exec_eq_execFor] at h
  obtain ⟨E, hE, update⟩ := execFor_updates s hi
  obtain ⟨htmr, hiir, hmav, hrmp⟩ := copies_of_sansOutcome (update s t (sameArgs_refl s) h)
  rw [htmr, hiir, hmav, hrmp]
  exact ⟨fun m hm hother => getElem_updateCopy_of_other hm (hother.imp_left hE.tmr),
    fun m hm hother => getElem_updateCopy_of_other hm (hother.imp_left hE.iir),
    fun m hm hother => getElem_updateCopy_of_other hm (hother.imp_left hE.mav),
    fun m hm hother => getElem_updateCopy_of_other hm (hother.imp_left hE.rmp)⟩

/-- Settles O19: the two updates are those of the state they start from, and updates of different copies commute. -/
theorem distinctCopiesCommute : Obligations.DistinctCopiesCommute := by
  intro i j s a b c d hi hj hother hia hjb hjc hid
  rw [exec_eq_execFor] at hia hjb hjc hid
  obtain ⟨E, hE, updateI⟩ := execFor_updates s hi
  obtain ⟨F, hF, updateJ⟩ := execFor_updates s hj
  have ha := updateI s a (sameArgs_refl s) hia
  have hc := updateJ s c (sameArgs_refl s) hjc
  obtain ⟨btmr, biir, bmav, brmp⟩ := copies_of_sansOutcome (updateJ a b (sameArgs_of_sansOutcome ha) hjb)
  obtain ⟨dtmr, diir, dmav, drmp⟩ := copies_of_sansOutcome (updateI c d (sameArgs_of_sansOutcome hc) hid)
  obtain ⟨atmr, aiir, amav, armp⟩ := copies_of_sansOutcome ha
  obtain ⟨ctmr, ciir, cmav, crmp⟩ := copies_of_sansOutcome hc
  have idle : ∀ u, i.inst ≠ j.inst ∨ i.unit ≠ u ∨ j.unit ≠ u := fun u =>
    hother.symm.imp_right fun hne => not_and_or.mp fun ⟨hiu, hju⟩ => hne (hiu.trans hju.symm)
  rw [btmr, dtmr, atmr, ctmr, biir, diir, aiir, ciir, bmav, dmav, amav, cmav, brmp, drmp, armp, crmp]
  exact ⟨updateCopy_comm ((idle .tmr).imp_right (Or.imp hE.tmr hF.tmr)),
    updateCopy_comm ((idle .iir).imp_right (Or.imp hE.iir hF.iir)),
    updateCopy_comm ((idle .mav).imp_right (Or.imp hE.mav hF.mav)),
    updateCopy_comm ((idle .rmp).imp_right (Or.imp hE.rmp hF.rmp))⟩

/-! ### What a command's outcome depends on -/

/-- The two states tell the same outcome: the same code and, where the command completed, the same results. -/
def SameOutcome (t t' : State P) : Prop := t.code = t'.code ∧ (t.code = .ok → t.res0 = t'.res0 ∧ t.res1 = t'.res1)

section SameOutcome

variable (s s' : State P)

theorem complete_sameOutcome (r0 r1 : Word) : SameOutcome (s.complete r0 r1) (s'.complete r0 r1) :=
  ⟨rfl, fun _ => ⟨rfl, rfl⟩⟩

theorem raise_sameOutcome {c : Code} (h : c ≠ .ok) : SameOutcome (s.raise c) (s'.raise c) :=
  ⟨rfl, fun hok => absurd hok h⟩

theorem fxCommand_sameOutcome (r : Option Word) {c : Code} (h : c ≠ .ok) :
    SameOutcome (s.fxCommand r c) (s'.fxCommand r c) := by
  cases r with
  | none => exact raise_sameOutcome s s' h
  | some v => exact complete_sameOutcome s s' v 0

section Selection

variable {α : Type} {N n : Nat} {copies copies' : Vector α N} {ready : α → Bool} {body : α → Verdict α}

theorem selectCopy_raisesFaults (hb : RaisesFaults body) {c : Code}
    (e : selectCopy copies ready n body = .raise c) : c ≠ .ok := by
  rcases selectCopy_cases copies ready n body with
    ⟨_, h⟩ | ⟨_, _, h⟩ | ⟨_, _, c', hc, h⟩ | ⟨_, _, _, _, _, _, h⟩ <;> rw [h] at e <;> cases e
  · decide
  · decide
  · exact hb _ c hc

/-- R36: a command of a unit tells the same outcome on two states that agree on the selected copy. -/
theorem commit_sameOutcome (put put' : Vector α N → State P) (hb : RaisesFaults body)
    (h : copies[n]? = copies'[n]?) :
    SameOutcome (s.commit put (selectCopy copies ready n body)) (s'.commit put' (selectCopy copies' ready n body)) := by
  rcases selectCopy_congr (ready := ready) (body := body) h with ⟨c, e, e'⟩ | ⟨_, _, r0, r1, e, e'⟩
  · rw [e, e']
    exact raise_sameOutcome s s' (selectCopy_raisesFaults hb e)
  · rw [e, e']
    exact complete_sameOutcome _ _ r0 r1

end Selection

end SameOutcome

section OwnCopy

variable {i : Instr} {s s' t t' : State P}

/-- R36: the outcome is a function of the ARG registers and the selected copy. -/
theorem execFor_sameOutcome (ha : SameArgs s s') (hc : sameCopy i s s') (h : execFor i s = .next t)
    (h' : execFor i s' = .next t') : SameOutcome t t' := by
  rw [sameCopy] at hc
  cases hu : i.unit <;> rw [hu] at hc
  case fx =>
    obtain ⟨r, c, hf, e⟩ := execFor_fx_shape i s hu
    cases (e s (sameArgs_refl s)).symm.trans h
    cases (e s' ha).symm.trans h'
    exact fxCommand_sameOutcome s s' r hf
  case tmr =>
    obtain ⟨ready, body, hb, e⟩ := execFor_tmr_shape i s hu
    cases (e s (sameArgs_refl s)).symm.trans h
    cases (e s' ha).symm.trans h'
    exact commit_sameOutcome s s' _ _ hb hc
  case iir =>
    obtain ⟨ready, body, hb, e⟩ := execFor_iir_shape i s hu
    cases (e s (sameArgs_refl s)).symm.trans h
    cases (e s' ha).symm.trans h'
    exact commit_sameOutcome s s' _ _ hb hc
  case mav =>
    obtain ⟨ready, body, hb, e⟩ := execFor_mav_shape i s hu
    cases (e s (sameArgs_refl s)).symm.trans h
    cases (e s' ha).symm.trans h'
    exact commit_sameOutcome s s' _ _ hb hc
  case rmp =>
    obtain ⟨ready, body, hb, e⟩ := execFor_rmp_shape i s hu
    cases (e s (sameArgs_refl s)).symm.trans h
    cases (e s' ha).symm.trans h'
    exact commit_sameOutcome s s' _ _ hb hc
  case sys => cases i <;> cases hu <;> cases h <;> cases h' <;> exact ⟨rfl, fun _ => ⟨rfl, rfl⟩⟩

/-- R36: so is the copy afterwards. -/
theorem execFor_sameCopy (ha : SameArgs s s') (hc : sameCopy i s s') (h : execFor i s = .next t)
    (h' : execFor i s' = .next t') : sameCopy i t t' := by
  by_cases hi : i = .sysReset
  · subst hi
    trivial
  · obtain ⟨E, -, update⟩ := execFor_updates s hi
    obtain ⟨htmr, hiir, hmav, hrmp⟩ := copies_of_sansOutcome (update s t (sameArgs_refl s) h)
    obtain ⟨htmr', hiir', hmav', hrmp'⟩ := copies_of_sansOutcome (update s' t' ha h')
    unfold sameCopy at hc ⊢
    cases hu : i.unit <;> simp only [hu] at hc ⊢
    case tmr => rw [htmr, htmr', getElem?_updateCopy_self, getElem?_updateCopy_self, hc]
    case iir => rw [hiir, hiir', getElem?_updateCopy_self, getElem?_updateCopy_self, hc]
    case mav => rw [hmav, hmav', getElem?_updateCopy_self, getElem?_updateCopy_self, hc]
    case rmp => rw [hrmp, hrmp', getElem?_updateCopy_self, getElem?_updateCopy_self, hc]

end OwnCopy

/-- Settles O18: outcome and copy afterwards, each from the ARG registers and the selected copy. -/
theorem commandReadsOnlyItsCopy : Obligations.CommandReadsOnlyItsCopy := by
  intro i s s' t t' h0 h1 h2 h3 hc h h'
  rw [exec_eq_execFor] at h h'
  have ha : SameArgs s s' := ⟨h0, h1, h2, h3⟩
  obtain ⟨hcode, hres⟩ := execFor_sameOutcome ha hc h h'
  exact ⟨hcode, hres, execFor_sameCopy ha hc h h'⟩

/-! ### The words composed of fields -/

/-- A word composed of two fields, as a number. -/
theorem toNat_append_eq_add {m n : Nat} (x : BitVec m) (y : BitVec n) :
    (x ++ y).toNat = x.toNat * 2 ^ n + y.toNat := by
  rw [BitVec.toNat_append, ← Nat.shiftLeft_add_eq_or_of_lt y.isLt, Nat.shiftLeft_eq]

theorem Code.toNat_lt (c : Code) : c.toNat < 7 := by cases c <;> decide

/-- R23: STATUS as a number. -/
theorem toNat_statusWord (s : State P) : s.statusWord.toNat = s.sticky.toNat * 512 + s.code.toNat := by
  have hc := s.code.toNat_lt
  simp only [State.statusWord, toNat_append_eq_add, BitVec.toNat_ofNat]
  omega

/-- Settles O8: the fields of STATUS by its number, and the codes by evaluation. -/
theorem statusWordFields : Obligations.StatusWordFields := by
  refine ⟨fun s => ?_, rfl, rfl, rfl, rfl, rfl, rfl, rfl⟩
  have hc := s.code.toNat_lt
  have hs := s.sticky.isLt
  rw [toNat_statusWord]
  omega

/-- R25: PARAM0 of a block with legal parameters, as a number. -/
theorem toNat_param0Word (hP : P.Legal) :
    (param0Word P).toNat = P.nRmp * 2 ^ 24 + P.nMav * 2 ^ 16 + P.nIir * 2 ^ 8 + P.nTmr := by
  obtain ⟨htmr, hiir, hmav, hrmp, -⟩ := hP
  simp only [param0Word, toNat_append_eq_add, BitVec.toNat_ofNat]
  omega

/-- R26: PARAM1 of a block with legal parameters, as a number. -/
theorem toNat_param1Word (hP : P.Legal) : (param1Word P).toNat = P.maxWin := by
  have hw := hP.maxWin
  simp only [param1Word, toNat_append_eq_add, BitVec.toNat_ofNat]
  omega

/-- R63: a legal read, on a block of any size. -/
theorem stepFor_read {s : State P} {off : Nat} {later : List HostOp} (h : s.pending = .read off 4 :: later)
    (hl : legalAccess off 4 = true) :
    stepFor s = .next { s with pending := later, readLog := s.readLog ++ [s.readReg (windowReg off)] } := by
  rw [stepFor, stepBy_op h, performOpBy, if_pos hl]
  cases windowReg off <;> rfl

/-- Settles O59: the two words as numbers; a write to either is ignored. -/
theorem paramsReadBack : Obligations.ParamsReadBack := by
  refine ⟨fun P s later hP => ⟨fun h => ⟨param0Word P, stepFor_read h rfl, ?_⟩,
    fun h => ⟨param1Word P, stepFor_read h rfl, ?_⟩, fun v h => ?_⟩, rfl, rfl⟩
  · rw [toNat_param0Word hP]
    obtain ⟨htmr, hiir, hmav, hrmp, -⟩ := hP
    omega
  · have hw := hP.maxWin
    rw [toNat_param1Word hP]
    omega
  · rcases h with h | h <;> exact stepBy_op h

end Sys2Proof.Machine

/-! PROOFS of the statements on the host register window (spec 20_memory.md): which accesses stop a step, what a legal
read returns and what a legal write does. The centre is the pair `step_read` and `step_write` for legal accesses and
`step_busError` for the others; the register behind each offset is then a matter of `windowReg`. -/

namespace Sys2Proof.Machine

open Sys2Proof.Config

/-! ### The outcome of an access -/

section Access

variable {s : State} {off n : Nat} {v : Word} {later : List HostOp}

/-- R61: the legal accesses. -/
theorem legalAccess_iff : legalAccess off n = true ↔ n = 4 ∧ off % 4 = 0 ∧ off < 0x40 := by
  simp [legalAccess, and_assoc]

/-- R61: the accesses of another width, alignment or offset are those that are not legal. -/
theorem not_legalAccess_iff : ¬ legalAccess off n = true ↔ n ≠ 4 ∨ off % 4 ≠ 0 ∨ 0x40 ≤ off := by
  rw [legalAccess_iff]
  omega

theorem step_write (h : s.pending = .write off n v :: later) (hl : legalAccess off n = true) :
    step s = State.writeRegBy exec { s with pending := later } (windowReg off) v := by
  rw [step_op h, performOp, performOpBy, if_pos hl]

theorem step_read (h : s.pending = .read off n :: later) (hl : legalAccess off n = true) :
    step s = .next { s with pending := later, readLog := s.readLog ++ [s.readReg (windowReg off)] } := by
  obtain ⟨rfl, -⟩ := legalAccess_iff.mp hl
  rw [step_eq_stepFor, stepFor_read h hl]

/-- R61, R237: an access that is not legal stops the step. -/
theorem step_busError {op : HostOp} (hop : op = .write off n v ∨ op = .read off n) (h : s.pending = op :: later)
    (hl : ¬ legalAccess off n = true) : step s = .fault (.busError off n) := by
  rcases hop with rfl | rfl <;> rw [step_op h, performOp, performOpBy, if_neg hl]

/-- R83: a word written to CMD, of whatever value, ends in a next state. -/
theorem performCommand_next (w : Word) (s : State) : ∃ t, performCommand w s = .next t := by
  rw [performCommand, performCommandBy]
  split
  · exact exec_next _ s
  · exact ⟨_, rfl⟩

/-- R64: a write to any register ends in a next state. -/
theorem writeRegBy_exec_next (s : State) (r : WindowReg) (v : Word) : ∃ t, s.writeRegBy exec r v = .next t := by
  cases r
  case cmd => exact performCommand_next v s
  all_goals exact ⟨_, rfl⟩

theorem step_legalAccess_next {op : HostOp} (hop : op = .write off n v ∨ op = .read off n)
    (h : s.pending = op :: later) (hl : legalAccess off n = true) : ∃ t, step s = .next t := by
  rcases hop with rfl | rfl
  · rw [step_write h hl]
    exact writeRegBy_exec_next _ _ v
  · exact ⟨_, step_read h hl⟩

end Access

/-- Settles O10: an access stops the step when it is not legal, and every legal one answers a next state. -/
theorem badAccessIsBusError : Obligations.BadAccessIsBusError := by
  intro s op off n v later hop h
  refine ⟨fun bad => ⟨step_busError hop h (not_legalAccess_iff.mpr bad), ?_⟩,
    fun hn hoff hlt => step_legalAccess_next hop h (legalAccess_iff.mpr ⟨hn, hoff, hlt⟩)⟩
  rw [State.afterBusError, h, List.tail_cons]

/-! ### The register at an offset -/

/-- R63, R24 to R26: what a read returns at each offset, the constants as numbers. -/
theorem readReg_windowReg (s : State) (off : Nat) : s.readReg (windowReg off) =
    if off = 0x04 then s.arg0 else if off = 0x08 then s.arg1 else if off = 0x0C then s.arg2
    else if off = 0x10 then s.arg3 else if off = 0x14 then s.res0 else if off = 0x18 then s.res1
    else if off = 0x1C then s.statusWord else if off = 0x20 then 0x46584D43 else if off = 0x24 then 0x04040404
    else if off = 0x28 then 0x00000040 else 0 := by
  fun_cases windowReg off
  case case12 => simp_all [State.readReg]
  all_goals rfl

/-- Settles O7: a legal read returns the register at its offset, whose value is the one listed. -/
theorem readReturnsRegister : Obligations.ReadReturnsRegister := by
  intro s off later h hoff hlt
  rw [step_read h (legalAccess_iff.mpr ⟨rfl, hoff, hlt⟩), readReg_windowReg]

/-- R64: from RES0 on, a write is ignored. -/
theorem writeRegBy_of_le_off (run : Instr → State → Host.Outcome State Fault Refusal) (s : State) {off : Nat}
    (h : 0x14 ≤ off) (v : Word) : s.writeRegBy run (windowReg off) v = .next s := by
  fun_cases windowReg off
  case case1 | case2 | case3 | case4 | case5 => omega
  all_goals rfl

/-- Settles O9: CMD and the ARG registers by their offsets, and the ignored writes by one lemma for all the others. -/
theorem writeEffects : Obligations.WriteEffects := by
  intro s off v later h
  refine ⟨?_, ?_, ?_, ?_, ?_, fun hoff hle hlt => ?ignored⟩
  case ignored => rw [step_write h (legalAccess_iff.mpr ⟨rfl, hoff, hlt⟩), writeRegBy_of_le_off exec _ hle]
  all_goals
    rintro rfl
    exact step_write h rfl

end Sys2Proof.Machine

/-! PROOFS of the statements on the command words (spec 30_encoding.md). The centre is `decode_eq_ok_iff`: a word
decodes to the one command with the word's OPC and INST when its RSV is 0. The two round trips are its two directions,
and `decode_eq_error_iff` says which words are left without a command. -/

namespace Sys2Proof.Machine

open Sys2Proof.Config

/-! ### The fields of a word -/

section Fields

variable (w : Word)

/-- R80: OPC as arithmetic. -/
theorem opcField_eq : opcField w = w.toNat % 256 := by
  rw [opcField, BitVec.extractLsb'_toNat, Nat.shiftRight_zero]

/-- R80: INST as arithmetic. -/
theorem instField_eq : instField w = w.toNat / 256 % 256 := by
  rw [instField, BitVec.extractLsb'_toNat, Nat.shiftRight_eq_div_pow]

/-- R80: RSV as arithmetic. -/
theorem rsvField_eq : rsvField w = w.toNat / 65536 := by
  have hw := w.isLt
  rw [rsvField, BitVec.extractLsb'_toNat, Nat.shiftRight_eq_div_pow]
  omega

theorem opcField_lt : opcField w < 256 := BitVec.isLt _

theorem instField_lt : instField w < 256 := BitVec.isLt _

/-- R80: the three fields are the whole word. -/
theorem toNat_eq_fields : w.toNat = rsvField w * 65536 + instField w * 256 + opcField w := by
  rw [rsvField_eq, instField_eq, opcField_eq]
  omega

end Fields

/-- R80, R84: the command word as a number. -/
theorem toNat_encode {i : Instr} (h : i.WellFormed) : (encode i).toNat = i.inst * 256 + i.opc.toNat := by
  rw [encode, Laws.Fields.toNat_word, BitVec.toNat_ofNat, Nat.mod_eq_of_lt h, Nat.mul_comm]

/-! ### Which fields decode, and to what -/

theorem plainCommand_eq_ok_iff {i j : Instr} {inst : Nat} : plainCommand j inst = .ok i ↔ j = i ∧ inst = 0 := by
  unfold plainCommand
  split <;> simp_all

/-- R84: the opcode map read in both directions: the fields decode to the command that has them. -/
theorem decodeFields_eq_ok_iff {opc inst : Nat} {i : Instr} :
    decodeFields opc inst = .ok i ↔ i.opc.toNat = opc ∧ i.inst = inst := by
  constructor
  · intro h
    revert h
    fun_cases decodeFields opc inst <;> intro h
    case case35 => cases h
    case case1 | case2 | case3 | case4 | case5 | case6 | case7 | case8 | case9 | case10 | case11 | case32 | case33
        | case34 =>
      obtain ⟨rfl, rfl⟩ := plainCommand_eq_ok_iff.mp h
      exact ⟨rfl, rfl⟩
    all_goals
      cases h
      exact ⟨rfl, rfl⟩
  · rintro ⟨rfl, rfl⟩
    cases i <;> rfl

/-- R83, R84: a word decodes to the command that has its OPC and INST, when its RSV is 0. -/
theorem decode_eq_ok_iff {w : Word} {i : Instr} :
    decode w = .ok i ↔ rsvField w = 0 ∧ i.opc.toNat = opcField w ∧ i.inst = instField w := by
  unfold decode
  split
  next h => rw [decodeFields_eq_ok_iff, and_iff_right h]
  next h => simp [h]

/-- Settles O1: the word of a command has the command's fields. -/
theorem decodeOfEncode : Obligations.DecodeOfEncode := by
  intro i hi
  obtain ⟨hopc, hinst, hrsv⟩ := Laws.Fields.of_any i
  exact decode_eq_ok_iff.mpr ⟨hrsv, hopc.symm, by rw [hinst, Nat.mod_eq_of_lt hi]⟩

/-- Settles O2: a word is determined by its fields, and those of a word that decodes are the command's. -/
theorem encodeOfDecode : Obligations.EncodeOfDecode := by
  intro w i h
  obtain ⟨hrsv, hopc, hinst⟩ := decode_eq_ok_iff.mp h
  have hi : i.WellFormed := hinst.trans_lt (instField_lt w)
  refine ⟨hi, BitVec.eq_of_toNat_eq ?_⟩
  rw [toNat_encode hi, toNat_eq_fields w, hrsv, hopc, hinst, Nat.zero_mul, Nat.zero_add]

/-! ### The illegal words -/

/-- R87: the OPC and INST values that are no command: OPC in a gap of the map, or INST not 0 on an FX or SYS opcode. -/
def IllegalFields (opc inst : Nat) : Prop :=
  (opc = 0x00 ∨ 0x0C ≤ opc ∧ opc ≤ 0x0F ∨ 0x16 ≤ opc ∧ opc ≤ 0x1E ∨ 0x23 ≤ opc ∧ opc ≤ 0x2E ∨
    0x32 ≤ opc ∧ opc ≤ 0x3E ∨ 0x45 ≤ opc ∧ opc ≤ 0x4E ∨ 0x50 ≤ opc ∧ opc ≤ 0xEF ∨ 0xF3 ≤ opc ∧ opc ≤ 0xFF) ∨
  ((0x01 ≤ opc ∧ opc ≤ 0x0B ∨ 0xF0 ≤ opc ∧ opc ≤ 0xF2) ∧ inst ≠ 0)

theorem illegalWord_iff_fields {w : Word} :
    IllegalWord w ↔ rsvField w ≠ 0 ∨ IllegalFields (opcField w) (instField w) := by
  rw [rsvField_eq, instField_eq, opcField_eq, IllegalWord, IllegalFields]

theorem plainCommand_eq_error_iff {j : Instr} {inst : Nat} :
    (∃ e, plainCommand j inst = .error e) ↔ inst ≠ 0 := by
  unfold plainCommand
  split <;> simp_all

/-- R84, R87: the opcode map rejects exactly the listed fields. -/
theorem decodeFields_eq_error_iff {opc inst : Nat} (hopc : opc < 256) :
    (∃ e, decodeFields opc inst = .error e) ↔ IllegalFields opc inst := by
  unfold IllegalFields
  fun_cases decodeFields opc inst
  case case35 =>
    simp only [imp_false] at *
    exact iff_of_true ⟨_, rfl⟩ (.inl (by omega))
  all_goals simp [plainCommand_eq_error_iff]

/-- R83, R87: the decoder rejects exactly the listed words. -/
theorem decode_eq_error_iff {w : Word} : (∃ e, decode w = .error e) ↔ IllegalWord w := by
  rw [illegalWord_iff_fields, decode]
  split
  next h => simpa [h] using decodeFields_eq_error_iff (opcField_lt w)
  next h => simp [h]

/-! ### What a command word does -/

section Perform

variable {w : Word} (s : State)

/-- R83: a word that decodes performs its command. -/
theorem performCommand_ok {i : Instr} (h : decode w = .ok i) : performCommand w s = exec i s := by
  rw [performCommand, performCommandBy, h]

/-- R83, R231: a word that does not decode raises E_ILLEGAL. -/
theorem performCommand_error {e : DecodeError} (h : decode w = .error e) :
    performCommand w s = .next (s.faulted .eIllegal) := by
  rw [performCommand, performCommandBy, h, ← raise_eq_faulted s (by decide)]

end Perform

/-- Settles O3: the listed words are those that the decoder rejects. -/
theorem illegalWordsRaise : Obligations.IllegalWordsRaise := by
  intro w s
  rw [← decode_eq_error_iff]
  cases h : decode w with
  | ok i => exact ⟨nofun, fun _ => ⟨i, rfl, performCommand_ok s h⟩⟩
  | error e => exact ⟨fun _ => performCommand_error s h, fun hne => absurd ⟨e, rfl⟩ hne⟩

/-- Settles O4: nine closed evaluations of the decoder. -/
theorem specWordsDecode : Obligations.SpecWordsDecode := ⟨rfl, rfl, rfl, rfl, rfl, rfl, rfl, rfl, rfl⟩

/-- Settles O5: the step performs the word, by what the word decodes to. -/
theorem stepPerformsCommand : Obligations.StepPerformsCommand := by
  intro s w later hpending
  rw [step_command hpending]
  exact ⟨fun _ hi _ => performCommand_ok _ hi, fun _ he => performCommand_error _ he⟩

/-- Settles O6: the first two checks of `countsDecideInst`, at this block's counts. -/
theorem decodeChecksInOrder : Obligations.DecodeChecksInOrder := by
  intro i s count hcount
  obtain ⟨hinst, hunconf, -⟩ := countsDecideInst block i s count hcount
  rw [exec_eq_execFor]
  exact ⟨hinst, hunconf⟩

end Sys2Proof.Machine

/-! PROOFS of the statements on the FX unit (spec 40_fx.md). The centre is three lemmas: `truncRat_div`, that `tdiv` is
the truncated rational quotient; `f2x_eq_some_iff`, which fix a pattern converts to; and `fixErr_le`, that no binary32
value is nearer to a fix than its rounded significand. The last compares on the grid of the binary32 values around the
fix (`f32val_grid`). -/

namespace Sys2Proof.Machine

open Sys2Proof.Config

/-! ### How an FX command ends -/

section Commands

variable (s : State)

/-- R100: an FX command that can fail either completes with its result or raises its code. -/
theorem fxCommand_eq_elim {P : Params} (s : State P) (r : Option Word) {c : Code} (h : c ≠ .ok) :
    s.fxCommand r c = r.elim (s.faulted c) (fun v => s.completed v 0) := by
  cases r with
  | none => exact raise_eq_faulted s h
  | some v => exact complete_eq_completed s v 0

theorem exec_fxF2x : exec .fxF2x s = .next ((f2x s.arg0).elim (s.faulted .eFrange) fun v => s.completed v 0) := by
  rw [← fxCommand_eq_elim s _ (by decide)]; rfl

theorem exec_fxDiv :
    exec .fxDiv s = .next ((fxdiv s.arg0 s.arg1).elim (s.faulted .eDiv0) fun v => s.completed v 0) := by
  rw [← fxCommand_eq_elim s _ (by decide)]; rfl

theorem exec_fxTc :
    exec .fxTc s = .next ((tcfix s.arg0 s.arg1).elim (s.faulted .eFrange) fun v => s.completed v 0) := by
  rw [← fxCommand_eq_elim s _ (by decide)]; rfl

theorem exec_fxX2f : exec .fxX2f s = .next (s.completed (x2f s.arg0) 0) := rfl

theorem exec_fxI2x : exec .fxI2x s = .next (s.completed (i2x s.arg0) 0) := rfl

theorem exec_fxX2i : exec .fxX2i s = .next (s.completed (x2i s.arg0) 0) := rfl

theorem exec_fxMul : exec .fxMul s = .next (s.completed (fxmul s.arg0 s.arg1) 0) := rfl

theorem exec_fxAdd : exec .fxAdd s = .next (s.completed (fxadd s.arg0 s.arg1) 0) := rfl

theorem exec_fxSub : exec .fxSub s = .next (s.completed (fxsub s.arg0 s.arg1) 0) := rfl

theorem exec_fxMac : exec .fxMac s = .next (s.completed (fxmac s.arg0 s.arg1 s.arg2) 0) := rfl

theorem exec_fxFc : exec .fxFc s = .next (s.completed (cutoff s.arg0 s.arg1) 0) := rfl

end Commands

/-! ### The fix functions on integers -/

/-- R10: the arithmetic shift is the floor of the quotient. -/
theorem asr_eq_fdiv (v : Int) (n : Nat) : asr v n = v.fdiv (2 ^ n) := by
  rw [asr, Int.fdiv_eq_ediv_of_nonneg v (by positivity), Nat.cast_pow, Nat.cast_two]

theorem x2i_eq_fdiv (a : Word) : x2i a = BitVec.ofInt 32 ((a.toInt + 2 ^ 15).fdiv (2 ^ 16)) := by
  rw [x2i, asr_eq_fdiv, wrap32, s32]

theorem fxmul_eq_fdiv (a b : Word) : fxmul a b = BitVec.ofInt 32 ((a.toInt * b.toInt).fdiv (2 ^ 16)) := by
  rw [fxmul, asr_eq_fdiv, wrap32, s32, s32]

/-- R10: a shift to the left is undone by a shift to the right. -/
theorem asr_mul_two_pow (v : Int) (n : Nat) : asr (v * 2 ^ n) n = v := by
  rw [asr, Nat.cast_pow, Nat.cast_two, Int.mul_ediv_cancel v (by positivity)]

/-- R11: the raw value of 1.0. -/
theorem s32_one : s32 0x00010000 = 2 ^ 16 := by decide

theorem fxmul_one (a : Word) : fxmul a 0x00010000 = a := by
  rw [fxmul, s32_one, asr_mul_two_pow, wrap32_s32]

theorem fxdiv_one (a : Word) : fxdiv a 0x00010000 = some a := by
  rw [fxdiv, s32_one, if_neg (by decide), tdiv, Int.mul_tdiv_cancel _ (by decide), wrap32_s32]

theorem fxmul_comm (a b : Word) : fxmul a b = fxmul b a := by
  rw [fxmul, fxmul, mul_comm]

/-- R103, R104: an integer part that fits a fix survives the round trip: the half unit of R104 is below one unit. -/
theorem x2i_i2x {i : Word} (lo : -32768 ≤ s32 i) (hi : s32 i ≤ 32767) : x2i (i2x i) = i := by
  have hfloor : asr (s32 i * 2 ^ 16 + 2 ^ 15) 16 = s32 i := by rw [asr]; omega
  rw [x2i, i2x, s32_wrap32 (by omega) (by omega), hfloor, wrap32_s32]

/-- R10: negation of a pattern is that of its value, but for the least one. -/
theorem s32_neg {a : Word} (h : a ≠ 0x80000000) : s32 (-a) = -s32 a :=
  BitVec.toInt_neg_of_ne_intMin h

/-- R112 item 5: truncation is symmetric. -/
theorem fxdiv_of_fxdiv_neg {a b q : Word} (ha : a ≠ 0x80000000) (hb : s32 b ≠ 0) (h : fxdiv (-a) b = some q) :
    fxdiv a b = some (-q) := by
  rw [fxdiv, if_neg hb] at h ⊢
  rw [← Option.some.inj h, s32_neg ha, ← wrap32_neg, tdiv, tdiv, Int.neg_mul, Int.neg_tdiv, neg_neg]

/-! ### Truncation toward zero of a rational -/

section Trunc

variable (q : ℚ)

theorem truncRat_neg : truncRat (-q) = -truncRat q := by
  obtain h | rfl | h := lt_trichotomy q 0
  · rw [truncRat, truncRat, if_pos (by linarith), if_neg (by linarith), Int.floor_neg]
  · simp [truncRat]
  · rw [truncRat, truncRat, if_neg (by linarith), if_pos h.le, Int.ceil_neg]

@[simp] theorem truncRat_intCast (n : ℤ) : truncRat n = n := by
  unfold truncRat
  split <;> simp

/-- R12, R106: truncation of a quotient of integers, for every sign combination. -/
theorem truncRat_div (a b : ℤ) : truncRat ((a : ℚ) / b) = a.tdiv b := by
  have natural (m n : ℕ) : truncRat ((m : ℚ) / n) = (m : ℤ).tdiv n := by
    rw [truncRat, if_pos (by positivity), Rat.floor_natCast_div_natCast]
    rfl
  obtain ⟨m, rfl | rfl⟩ := a.eq_nat_or_neg <;> obtain ⟨n, rfl | rfl⟩ := b.eq_nat_or_neg <;>
    simp [neg_div, div_neg, truncRat_neg, natural]

theorem abs_truncRat_sub_lt : |(truncRat q : ℚ) - q| < 1 := by
  rw [abs_lt]
  unfold truncRat
  split
  · constructor <;> linarith [Int.floor_le q, Int.lt_floor_add_one q]
  · constructor <;> linarith [Int.le_ceil q, Int.ceil_lt_add_one q]

theorem abs_truncRat_le : |(truncRat q : ℚ)| ≤ |q| := by
  unfold truncRat
  split
  next h =>
    rw [abs_of_nonneg h, abs_of_nonneg (by exact_mod_cast Int.floor_nonneg.mpr h)]
    exact Int.floor_le q
  next h =>
    have hq : q ≤ 0 := (not_le.mp h).le
    rw [abs_of_nonpos hq, abs_of_nonpos (by exact_mod_cast Int.ceil_nonpos.mpr hq)]
    exact neg_le_neg (Int.le_ceil q)

end Trunc

/-- Settles O29: the integer quotient of R106 is the truncated rational one. -/
theorem fxDivTruncates : Obligations.FxDivTruncates := by
  refine ⟨rfl, fun s h => ?_, fun s h => ?_⟩
  · have hb : s32 s.arg1 ≠ 0 := fun h0 => h (s32_inj.mp (h0.trans s32_zero.symm))
    have hq : truncRat ((s.arg0.toInt * 2 ^ 16 : ℚ) / s.arg1.toInt) = tdiv (s32 s.arg0 * 2 ^ 16) (s32 s.arg1) := by
      rw [tdiv, ← truncRat_div, s32, s32]
      push_cast
      rfl
    rw [exec_fxDiv, fxdiv, if_neg hb, hq]
    rfl
  · rw [exec_fxDiv, fxdiv, h, if_pos s32_zero]
    rfl

/-! ### The conversion to a fix -/

/-- R12: truncation of a scaled integer, computed on integers. -/
theorem truncScaled_eq_truncRat (m p : ℤ) : truncScaled m p = truncRat (m * 2 ^ p) := by
  unfold truncScaled
  split
  next h =>
    lift p to ℕ using h
    rw [Int.toNat_natCast, zpow_natCast, ← truncRat_intCast (_ * _)]
    push_cast
    rfl
  next h =>
    obtain ⟨n, rfl⟩ := Int.exists_eq_neg_ofNat (not_le.mp h).le
    rw [neg_neg, Int.toNat_natCast, zpow_neg, zpow_natCast, ← div_eq_mul_inv, ← truncRat_div]
    push_cast
    rfl

/-- R101: the integer that F2X computes is the truncated product of the value and 2^16. -/
theorem truncScaled_f32 (w : Word) : truncScaled (f32mant w) (f32pow w + 16) = truncRat (f32val w * 2 ^ 16) := by
  rw [truncScaled_eq_truncRat, f32val, zpow_add₀ two_ne_zero, mul_assoc]
  rfl

theorem inFixRange_iff {r : ℤ} : inFixRange r = true ↔ -2 ^ 31 ≤ r ∧ r ≤ 2 ^ 31 - 1 := by
  simp [inFixRange]

/-- R101: what a conversion answers: the fix whose raw value is the truncated product. -/
theorem f2x_eq_some_iff {w v : Word} :
    f2x w = some v ↔ f32finite w = true ∧ s32 v = truncRat (f32val w * 2 ^ 16) := by
  rw [f2x, truncScaled_f32]
  split
  next hfin =>
    rw [and_iff_right hfin]
    dsimp only
    split
    next hr =>
      obtain ⟨lo, hi⟩ := inFixRange_iff.mp hr
      rw [Option.some_inj, ← s32_inj, s32_wrap32 lo hi, eq_comm]
    next hr =>
      refine iff_of_false nofun fun hv => hr ?_
      exact hv ▸ inFixRange_iff.mpr ⟨s32_lower v, s32_upper v⟩
  next hfin => exact iff_of_false nofun fun h => hfin h.1

theorem f32finite_iff_class {w : Word} : f32finite w = true ↔ f32class w ≠ .nan ∧ f32class w ≠ .infinity := by
  unfold f32finite
  cases f32class w <;> decide

/-- Settles O25: `f2x_eq_some_iff` read for each class and range. -/
theorem fxF2xTruncates : Obligations.FxF2xTruncates := by
  refine ⟨rfl, fun w hw => ?_, fun w r hnan hinf hr => ⟨fun lo hi => ?_, fun hout => ?_⟩,
    fun s v hv => ?_, fun s hv => ?_⟩
  · refine Option.eq_none_iff_forall_ne_some.mpr fun v hv => ?_
    obtain ⟨hnan, hinf⟩ := f32finite_iff_class.mp (f2x_eq_some_iff.mp hv).1
    exact hw.elim hnan hinf
  · exact f2x_eq_some_iff.mpr ⟨f32finite_iff_class.mpr ⟨hnan, hinf⟩, (s32_wrap32 lo hi).trans hr⟩
  · refine Option.eq_none_iff_forall_ne_some.mpr fun v hv => ?_
    have hval : s32 v = r := (f2x_eq_some_iff.mp hv).2.trans hr.symm
    have lo := s32_lower v
    have hi := s32_upper v
    omega
  · rw [exec_fxF2x, hv]
    rfl
  · rw [exec_fxF2x, hv]
    rfl

/-- Settles O27: the two shifts as arithmetic. -/
theorem fxIntegerConversions : Obligations.FxIntegerConversions :=
  ⟨rfl, rfl, exec_fxI2x, fun s => by rw [exec_fxX2i, x2i_eq_fdiv]⟩

/-- Settles O28: the floored product, and the wrapped sums as sums of patterns. -/
theorem fxMulAddSubMac : Obligations.FxMulAddSubMac := by
  refine ⟨rfl, rfl, rfl, rfl, fun s => ?_, fun s => ?_, fun s => ?_, fun s => ?_⟩
  · rw [exec_fxMul, fxmul_eq_fdiv]
  · rw [exec_fxAdd, fxadd_eq]
  · rw [exec_fxSub, fxsub_eq]
  · rw [exec_fxMac, fxmac, fxadd_eq, fxmul_eq_fdiv]

/-- Settles O30: the open functions stand in both sides as they are. -/
theorem fxTimeConstantHelpers : Obligations.FxTimeConstantHelpers := ⟨rfl, rfl, exec_fxTc, exec_fxFc⟩

/-! ### A pattern put together from its fields -/

/-- R12: the normal pattern of `± sig × 2^(e − 150)`; a significand of 2^24 carries into the exponent field. -/
def packF32 (neg : Bool) (e sig : Nat) : Word :=
  ofU32 ((if neg then 2 ^ 31 else 0) + e * 2 ^ 23 + (sig - 2 ^ 23))

section Pack

variable (neg : Bool) {e sig : Nat} (he : 0 < e) (he' : e < 254) (lo : 2 ^ 23 ≤ sig) (hi : sig ≤ 2 ^ 24)

include he' hi in
theorem toNat_packF32 :
    (packF32 neg e sig).toNat = neg.toNat * 2 ^ 31 + e * 2 ^ 23 + (sig - 2 ^ 23) := by
  have hsign : (if neg then 2 ^ 31 else 0) = neg.toNat * 2 ^ 31 := by cases neg <;> rfl
  have hneg := neg.toNat_le
  rw [packF32, hsign]
  exact u32_ofU32 (by omega)

include he' hi in
theorem sign_packF32 : (packF32 neg e sig).toNat / 2 ^ 31 = neg.toNat := by
  rw [toNat_packF32 neg he' hi]
  omega

include he' hi in
theorem f32exp_packF32 : f32exp (packF32 neg e sig) = if sig = 2 ^ 24 then e + 1 else e := by
  rw [f32exp_eq, toNat_packF32 neg he' hi]
  split <;> omega

include he' hi in
theorem f32frac_packF32 : f32frac (packF32 neg e sig) = if sig = 2 ^ 24 then 0 else sig - 2 ^ 23 := by
  rw [f32frac_eq, toNat_packF32 neg he' hi]
  split <;> omega

include he he' hi in
theorem f32class_packF32 : f32class (packF32 neg e sig) = .normal := by
  have hexp := f32exp_packF32 neg he' hi
  rw [f32class, if_neg (by rw [hexp]; split <;> omega), if_neg (by rw [hexp]; split <;> omega)]

include he' lo hi in
theorem f32frac_packF32_even (h : sig % 2 = 0) : f32frac (packF32 neg e sig) % 2 = 0 := by
  rw [f32frac_packF32 neg he' hi]
  split <;> omega

include he he' lo hi in
/-- R12: the carry out of the significand gives the pattern of the value all the same. -/
theorem f32val_packF32 :
    f32val (packF32 neg e sig) = (-1) ^ neg.toNat * (sig * 2 ^ ((e : ℤ) - 150)) := by
  have hexp := f32exp_packF32 neg he' hi
  rw [f32val_of_exp_ne_zero _ (by rw [hexp]; split <;> omega), sign_packF32 neg he' hi, hexp,
    f32frac_packF32 neg he' hi, two_zpow_sub_150]
  split
  next h =>
    rw [h, Nat.cast_add, Nat.cast_one, add_sub_right_comm, zpow_add_one₀ two_ne_zero]
    push_cast
    ring
  next h =>
    rw [Nat.cast_sub lo]
    push_cast
    ring

end Pack

/-! ### The rounded significand -/

/-- R12, R102: the 24-bit significand of a magnitude, its leading bit at place 23. -/
def fixSig (m : Nat) : Nat := if m.log2 ≤ 23 then m * 2 ^ (23 - m.log2) else rneShift m (m.log2 - 23)

theorem rneFix_eq_packF32 (neg : Bool) {m : Nat} (h : m ≠ 0) :
    rneFix neg m = packF32 neg (m.log2 + 111) (fixSig m) := by
  rw [rneFix, if_neg h]
  rfl

theorem rneShift_bounds (m d : Nat) : m / 2 ^ d ≤ rneShift m d ∧ rneShift m d ≤ m / 2 ^ d + 1 := by
  unfold rneShift
  dsimp only
  split <;> omega

/-- R12: rounding to nearest is off by half a unit at most, and by exactly half a unit only at an even result. -/
theorem rneShift_half_unit (m d : Nat) :
    2 * |(rneShift m d : ℤ) * 2 ^ d - m| ≤ 2 ^ d ∧
    (2 * |(rneShift m d : ℤ) * 2 ^ d - m| = 2 ^ d → rneShift m d % 2 = 0) := by
  have hdiv : (2 ^ d * (m / 2 ^ d : ℕ) + (m % 2 ^ d : ℕ) : ℤ) = m := by exact_mod_cast Nat.div_add_mod m (2 ^ d)
  have hr : m % 2 ^ d < 2 ^ d := Nat.mod_lt _ (by positivity)
  have hD : ((2 ^ d : ℕ) : ℤ) = 2 ^ d := by norm_cast
  unfold rneShift
  dsimp only
  split
  next h =>
    have hdiff : ((m / 2 ^ d + 1 : ℕ) : ℤ) * 2 ^ d - m = (2 ^ d : ℕ) - (m % 2 ^ d : ℕ) := by
      rw [← hdiv]; push_cast; ring
    rw [hdiff, abs_of_nonneg (by omega)]
    omega
  next h =>
    have hdiff : ((m / 2 ^ d : ℕ) : ℤ) * 2 ^ d - m = -(m % 2 ^ d : ℕ) := by
      rw [← hdiv]; ring
    rw [hdiff, abs_neg, abs_of_nonneg (by omega)]
    omega

/-- R12: a magnitude between two powers of two has a significand of 24 bits, or 2^24 after a carry. -/
theorem fixSig_bounds {m : Nat} (h : m ≠ 0) : 2 ^ 23 ≤ fixSig m ∧ fixSig m ≤ 2 ^ 24 := by
  have hlo : 2 ^ m.log2 ≤ m := Nat.log2_self_le h
  have hhi : m < 2 ^ (m.log2 + 1) := Nat.lt_log2_self
  unfold fixSig
  split
  next hL =>
    have hpow : 2 ^ m.log2 * 2 ^ (23 - m.log2) = 2 ^ 23 := by rw [← pow_add]; congr 1; omega
    constructor
    · exact hpow ▸ Nat.mul_le_mul_right _ hlo
    · have := Nat.mul_le_mul_right (2 ^ (23 - m.log2)) hhi.le
      rw [pow_succ, mul_right_comm, hpow] at this
      exact this
  next hL =>
    have hpow : 2 ^ m.log2 = 2 ^ 23 * 2 ^ (m.log2 - 23) := by rw [← pow_add]; congr 1; omega
    rw [pow_succ, hpow, mul_right_comm] at hhi
    rw [hpow] at hlo
    have hq := (Nat.le_div_iff_mul_le (by positivity)).mpr hlo
    have hq' := (Nat.div_lt_iff_lt_mul (by positivity)).mpr hhi
    obtain ⟨h1, h2⟩ := rneShift_bounds m (m.log2 - 23)
    omega

/-- R102: the distance of two neighbouring binary32 values around `m / 2^16`. -/
def fixUnit (m : Nat) : ℚ := 2 ^ ((m.log2 : ℤ) - 39)

theorem fixUnit_pos (m : Nat) : 0 < fixUnit m := by
  unfold fixUnit; positivity

/-- R102: a magnitude of at most 24 bits is not rounded. -/
theorem fixSig_exact {m : Nat} (h : m.log2 ≤ 23) : fixSig m * fixUnit m = (m : ℚ) / 2 ^ 16 := by
  have hpow : (2 : ℚ) ^ (23 - m.log2) * 2 ^ ((m.log2 : ℤ) - 39) = 1 / 2 ^ 16 := by
    rw [← zpow_natCast, ← zpow_add₀ two_ne_zero, show ((23 - m.log2 : ℕ) : ℤ) + (m.log2 - 39) = -16 by omega]
    norm_num
  rw [fixSig, if_pos h, fixUnit]
  push_cast
  rw [mul_assoc, hpow, mul_one_div]

/-- R102: how far the rounded magnitude is from `m / 2^16`. -/
def fixErr (m : Nat) : ℚ := |fixSig m * fixUnit m - (m : ℚ) / 2 ^ 16|

/-- R102: the error is half a unit at most, and exactly half a unit only at an even significand. -/
theorem fixErr_half_unit (m : Nat) :
    fixErr m ≤ fixUnit m / 2 ∧ (fixErr m = fixUnit m / 2 → fixSig m % 2 = 0) := by
  by_cases h : m.log2 ≤ 23
  · have hu := fixUnit_pos m
    rw [fixErr, fixSig_exact h, sub_self, abs_zero]
    exact ⟨by linarith, fun h0 => by linarith⟩
  · obtain ⟨d, hd⟩ : ∃ d, m.log2 = d + 23 := ⟨m.log2 - 23, by omega⟩
    have hunit : fixUnit m = 2 ^ d / 2 ^ 16 := by
      rw [fixUnit, hd, show ((d + 23 : ℕ) : ℤ) - 39 = d - 16 by omega, zpow_sub₀ two_ne_zero]
      rfl
    have hsig : fixSig m = rneShift m d := by rw [fixSig, if_neg h, hd, Nat.add_sub_cancel]
    have hdiff : fixErr m = ((2 * |(rneShift m d : ℤ) * 2 ^ d - m| : ℤ) : ℚ) / 2 ^ 17 := by
      rw [fixErr, hsig, hunit, ← mul_div_assoc, ← sub_div, abs_div, abs_of_pos (show (0 : ℚ) < 2 ^ 16 by positivity)]
      push_cast
      ring
    have hhalf : fixUnit m / 2 = ((2 ^ d : ℤ) : ℚ) / 2 ^ 17 := by
      rw [hunit]; push_cast; ring
    obtain ⟨hle, heven⟩ := rneShift_half_unit m d
    rw [hdiff, hhalf, hsig]
    exact ⟨div_le_div_of_nonneg_right (by exact_mod_cast hle) (by positivity),
      fun heq => heven (by exact_mod_cast (div_left_inj' (by positivity)).mp heq)⟩

/-- R102: the lower end of the binade. -/
theorem fixUnit_le {m : Nat} (h : m ≠ 0) : 2 ^ 23 * fixUnit m ≤ (m : ℚ) / 2 ^ 16 := by
  have hlo : ((2 ^ m.log2 : ℕ) : ℚ) ≤ m := by exact_mod_cast Nat.log2_self_le h
  have hpow : 2 ^ 23 * fixUnit m = ((2 ^ m.log2 : ℕ) : ℚ) / 2 ^ 16 := by
    rw [fixUnit, zpow_sub₀ two_ne_zero, zpow_natCast]
    push_cast
    norm_num
    ring
  rw [hpow]
  gcongr

/-! ### The conversion from a fix -/

section FromFix

variable (a : Word)

/-- R10: the raw value by its sign and magnitude. -/
theorem s32_eq_sign_mul_natAbs : (s32 a : ℚ) = (-1) ^ (decide (s32 a < 0)).toNat * (s32 a).natAbs := by
  rw [Nat.cast_natAbs, Int.cast_abs]
  by_cases h : s32 a < 0
  · rw [abs_of_neg (by exact_mod_cast h)]
    simp [h]
  · rw [abs_of_nonneg (by exact_mod_cast not_lt.mp h)]
    simp [h]

theorem natAbs_s32_ne_zero {a : Word} (h : a ≠ 0) : (s32 a).natAbs ≠ 0 :=
  Int.natAbs_ne_zero.mpr fun h0 => h (s32_inj.mp (h0.trans s32_zero.symm))

theorem log2_natAbs_s32_le : (s32 a).natAbs.log2 ≤ 31 := by
  by_cases h : a = 0
  · subst h; decide
  · have lo := s32_lower a
    have hi := s32_upper a
    exact Nat.lt_succ_iff.mp ((Nat.log2_lt (natAbs_s32_ne_zero h)).mpr (by omega))

theorem x2f_zero : x2f 0 = 0 := rfl

/-- R102: the conversion of anything but 0 is the pattern of its rounded significand. -/
theorem x2f_eq_packF32 {a : Word} (h : a ≠ 0) : x2f a =
    packF32 (decide (s32 a < 0)) ((s32 a).natAbs.log2 + 111) (fixSig (s32 a).natAbs) :=
  rneFix_eq_packF32 _ (natAbs_s32_ne_zero h)

@[simp] theorem f32val_zero : f32val 0 = 0 := by
  rw [f32val, show f32mant 0 = 0 by decide, Int.cast_zero, zero_mul]

/-- R102: the exact value of the conversion. -/
theorem f32val_x2f : f32val (x2f a) =
    (-1) ^ (decide (s32 a < 0)).toNat * (fixSig (s32 a).natAbs * fixUnit (s32 a).natAbs) := by
  by_cases h : a = 0
  · subst h
    rw [x2f_zero, f32val_zero, s32_zero, Int.natAbs_zero, fixSig_exact (by decide)]
    simp
  · have hL := log2_natAbs_s32_le a
    obtain ⟨lo, hi⟩ := fixSig_bounds (natAbs_s32_ne_zero h)
    have hexp : (((s32 a).natAbs.log2 + 111 : ℕ) : ℤ) - 150 = (s32 a).natAbs.log2 - 39 := by omega
    rw [x2f_eq_packF32 h, f32val_packF32 _ (by omega) (by omega) lo hi, fixUnit, hexp]

theorem abs_f32val_x2f_sub : |f32val (x2f a) - (s32 a : ℚ) / 2 ^ 16| = fixErr (s32 a).natAbs := by
  rw [f32val_x2f, s32_eq_sign_mul_natAbs, mul_div_assoc, ← mul_sub, abs_mul, abs_neg_one_pow, one_mul, fixErr]

/-- R102: a raw value of at most 24 bits converts exactly. -/
theorem f32val_x2f_of_small {a : Word} (h : |s32 a| < 2 ^ 24) : f32val (x2f a) = (s32 a : ℚ) / 2 ^ 16 := by
  have hL : (s32 a).natAbs.log2 ≤ 23 := by
    by_cases h0 : (s32 a).natAbs = 0
    · rw [h0]; decide
    · rw [Int.abs_eq_natAbs] at h
      exact Nat.lt_succ_iff.mp ((Nat.log2_lt h0).mpr (by omega))
  rw [f32val_x2f, fixSig_exact hL, s32_eq_sign_mul_natAbs, mul_div_assoc]

theorem f32class_x2f : f32class (x2f a) = .zero ∨ f32class (x2f a) = .normal := by
  by_cases h : a = 0
  · subst h; exact .inl rfl
  · have hL := log2_natAbs_s32_le a
    rw [x2f_eq_packF32 h]
    exact .inr (f32class_packF32 _ (by omega) (by omega) (fixSig_bounds (natAbs_s32_ne_zero h)).2)

theorem f32finite_x2f : f32finite (x2f a) = true := by
  rw [f32finite_iff_class]
  rcases f32class_x2f a with h | h <;> simp [h]

/-- R102: a result with an even significand has an even fraction. -/
theorem f32frac_x2f_even {a : Word} (h : a ≠ 0) (heven : fixSig (s32 a).natAbs % 2 = 0) : f32frac (x2f a) % 2 = 0 := by
  have hL := log2_natAbs_s32_le a
  obtain ⟨lo, hi⟩ := fixSig_bounds (natAbs_s32_ne_zero h)
  rw [x2f_eq_packF32 h]
  exact f32frac_packF32_even _ (by omega) lo hi heven

end FromFix

/-! ### The grid of the binary32 values -/

theorem abs_f32mant_lt (w : Word) : |f32mant w| < 2 ^ 24 := by
  have hfrac := Nat.mod_lt w.toNat (show 0 < 2 ^ 23 by decide)
  rw [← f32frac_eq] at hfrac
  rw [f32mant_eq, abs_mul, abs_neg_one_pow, one_mul, Nat.abs_cast]
  split <;> omega

/-- R12: a value is a multiple of a given power of two, or its exponent is below that of the power's binade. -/
theorem f32val_grid (w : Word) (e : ℤ) :
    (∃ k : ℤ, f32val w = k * 2 ^ e) ∨ |f32val w| < 2 ^ 23 * 2 ^ e := by
  obtain hp | hp := le_or_gt e (f32pow w)
  · left
    refine ⟨f32mant w * 2 ^ (f32pow w - e).toNat, ?_⟩
    have hpow : (2 : ℚ) ^ f32pow w = 2 ^ (f32pow w - e).toNat * 2 ^ e := by
      rw [← zpow_natCast, ← zpow_add₀ two_ne_zero]
      congr 1
      omega
    rw [f32val, hpow]
    push_cast
    ring
  · right
    have hmant : |(f32mant w : ℚ)| < 2 ^ 24 := by exact_mod_cast abs_f32mant_lt w
    have hpow : (2 : ℚ) ^ f32pow w ≤ 2 ^ (e - 1) := zpow_le_zpow_right₀ (by norm_num) (by omega)
    calc |f32val w| = |(f32mant w : ℚ)| * 2 ^ f32pow w := by
          rw [f32val, abs_mul, abs_of_pos (show (0 : ℚ) < 2 ^ f32pow w by positivity)]
      _ < 2 ^ 24 * 2 ^ (e - 1) := mul_lt_mul hmant hpow (by positivity) (by positivity)
      _ = 2 ^ 23 * 2 ^ e := by rw [zpow_sub_one₀ two_ne_zero]; ring

/-- A multiple of the unit that is within half a unit is a nearest one; another is as near only at half a unit. -/
theorem nearest_of_half_unit {u x : ℚ} {n : ℤ} (hu : 0 < u) (half : |n * u - x| ≤ u / 2) {k : ℤ} (hk : k ≠ n) :
    |n * u - x| ≤ |k * u - x| ∧ (|n * u - x| = |k * u - x| → |n * u - x| = u / 2) := by
  have hone : (1 : ℚ) ≤ |(k : ℚ) - n| := by exact_mod_cast Int.one_le_abs (sub_ne_zero.mpr hk)
  have hdist : u ≤ |k * u - x| + |n * u - x| := by
    calc u ≤ |(k : ℚ) - n| * u := le_mul_of_one_le_left hu.le hone
      _ = |(k * u - x) - (n * u - x)| := by
          rw [← abs_of_pos hu, ← abs_mul, abs_of_pos hu]; ring_nf
      _ ≤ _ := abs_sub _ _
  exact ⟨by linarith, fun h => by linarith⟩

/-- R12, R102: no value on the grid around a magnitude, and none below its binade, is nearer than the rounded one, and
another is as near only when the significand is even. -/
theorem fixErr_le {m : Nat} (h : m ≠ 0) {y : ℚ}
    (grid : (∃ k : ℤ, y = k * fixUnit m) ∨ |y| < 2 ^ 23 * fixUnit m) :
    fixErr m ≤ |y - (m : ℚ) / 2 ^ 16| ∧
    (y ≠ fixSig m * fixUnit m → fixErr m = |y - (m : ℚ) / 2 ^ 16| → fixSig m % 2 = 0) := by
  obtain ⟨half, heven⟩ := fixErr_half_unit m
  have onGrid (k : ℤ) (hk : k ≠ fixSig m) : fixErr m ≤ |k * fixUnit m - (m : ℚ) / 2 ^ 16| ∧
      (fixErr m = |k * fixUnit m - (m : ℚ) / 2 ^ 16| → fixErr m = fixUnit m / 2) :=
    nearest_of_half_unit (n := fixSig m) (fixUnit_pos m) half hk
  obtain ⟨k, rfl⟩ | hy := grid
  · by_cases hk : k = fixSig m
    · subst hk
      exact ⟨le_rfl, fun hne => absurd rfl hne⟩
    · obtain ⟨hle, htie⟩ := onGrid k hk
      exact ⟨hle, fun _ heq => heven (htie heq)⟩
  · have hlow := fixUnit_le h
    have hbelow : |(2 ^ 23 : ℚ) * fixUnit m - m / 2 ^ 16| < |y - (m : ℚ) / 2 ^ 16| := by
      rw [abs_of_nonpos (by linarith), abs_of_nonpos (by linarith [le_abs_self y])]
      linarith [le_abs_self y]
    have hle : fixErr m ≤ |(2 ^ 23 : ℚ) * fixUnit m - m / 2 ^ 16| := by
      by_cases hk : (2 ^ 23 : ℤ) = fixSig m
      · rw [fixErr, show (fixSig m : ℚ) = 2 ^ 23 by exact_mod_cast hk.symm]
      · exact_mod_cast (onGrid (2 ^ 23) hk).1
    exact ⟨(hle.trans_lt hbelow).le, fun _ heq => absurd heq (hle.trans_lt hbelow).ne⟩

/-- R102: `fixErr_le` for a raw value of either sign. -/
theorem fixErr_le_abs_f32val_sub {a : Word} (h : a ≠ 0) (w : Word) :
    fixErr (s32 a).natAbs ≤ |f32val w - (s32 a : ℚ) / 2 ^ 16| ∧
    (f32val w ≠ f32val (x2f a) → fixErr (s32 a).natAbs = |f32val w - (s32 a : ℚ) / 2 ^ 16| →
      fixSig (s32 a).natAbs % 2 = 0) := by
  have grid := f32val_grid w ((s32 a).natAbs.log2 - 39)
  rw [f32val_x2f, s32_eq_sign_mul_natAbs]
  obtain hσ | hσ := neg_one_pow_eq_or ℚ (decide (s32 a < 0)).toNat <;> rw [hσ]
  · simpa only [one_mul] using fixErr_le (natAbs_s32_ne_zero h) grid
  · have gridNeg : (∃ k : ℤ, -f32val w = k * fixUnit (s32 a).natAbs) ∨
        |-f32val w| < 2 ^ 23 * fixUnit (s32 a).natAbs := by
      rw [abs_neg]
      exact grid.imp_left fun ⟨k, hk⟩ => ⟨-k, by rw [hk, Int.cast_neg, neg_mul]; rfl⟩
    have mirror : |f32val w - -1 * ((s32 a).natAbs : ℚ) / 2 ^ 16| = |-f32val w - ((s32 a).natAbs : ℚ) / 2 ^ 16| := by
      rw [← abs_neg]; congr 1; ring
    rw [mirror, neg_one_mul]
    exact (fixErr_le (natAbs_s32_ne_zero h) gridNeg).imp_right fun tie hne => tie (mt neg_eq_iff_eq_neg.mp hne)

theorem x2f_isNearestEven (a : Word) : IsNearestEven ((s32 a : ℚ) / 2 ^ 16) (x2f a) := by
  by_cases h : a = 0
  · subst h
    refine ⟨rfl, fun w _ => ?_, fun _ _ _ _ => rfl⟩
    rw [x2f_zero, f32val_zero, s32_zero]
    simp
  · refine ⟨f32finite_x2f a, fun w _ => ?_, fun w _ hne heq => f32frac_x2f_even h ?_⟩
    · exact abs_f32val_x2f_sub a ▸ (fixErr_le_abs_f32val_sub h w).1
    · exact (fixErr_le_abs_f32val_sub h w).2 hne (abs_f32val_x2f_sub a ▸ heq)

/-- Settles O26: the rounded significand is nearest on the grid of the binary32 values. -/
theorem fxX2fRoundsToNearestEven : Obligations.FxX2fRoundsToNearestEven :=
  ⟨rfl, fun a => ⟨x2f_isNearestEven a, f32class_x2f a⟩, x2f_zero, exec_fxX2f⟩

/-! ### The round trip -/

section RoundTrip

variable {w v : Word}

/-- R112: a raw value that some finite pattern stands for exactly is converted to exactly that value. -/
theorem f32val_x2f_of_representable (hw : f32finite w = true) (h : f32val w = (s32 v : ℚ) / 2 ^ 16) :
    f32val (x2f v) = f32val w := by
  have hnear := (x2f_isNearestEven v).nearest w hw
  rw [← h, sub_self, abs_zero] at hnear
  exact sub_eq_zero.mp (abs_nonpos_iff.mp hnear)

/-- R112 item 1: below 256 the raw value has at most 24 bits. -/
theorem f32val_x2f_of_abs_lt (h : f2x w = some v) (hw : |f32val w| < 256) : f32val (x2f v) = (s32 v : ℚ) / 2 ^ 16 := by
  obtain ⟨-, hv⟩ := f2x_eq_some_iff.mp h
  refine f32val_x2f_of_small ?_
  have hle := abs_truncRat_le (f32val w * 2 ^ 16)
  rw [← hv, abs_mul, abs_of_pos (show (0 : ℚ) < 2 ^ 16 by positivity)] at hle
  have hlt : |(s32 v : ℚ)| < 2 ^ 24 := by linarith
  exact_mod_cast hlt

/-- R112 item 1: from 256 up the product with 2^16 is an integer, which F2X does not truncate. -/
theorem f32val_x2f_of_le_abs (h : f2x w = some v) (hw : 256 ≤ |f32val w|) : f32val (x2f v) = f32val w := by
  obtain ⟨hfin, hv⟩ := f2x_eq_some_iff.mp h
  obtain ⟨k, hk⟩ | hlt := f32val_grid w (-15)
  · have hint : f32val w * 2 ^ 16 = ((2 * k : ℤ) : ℚ) := by
      rw [hk]; push_cast; norm_num; ring
    rw [hint, truncRat_intCast] at hv
    exact f32val_x2f_of_representable hfin (by rw [hv, ← hint]; norm_num)
  · norm_num at hlt
    linarith

/-- R112 item 1: F2X loses less than one unit. -/
theorem abs_f32val_x2f_sub_lt (h : f2x w = some v) : |f32val (x2f v) - f32val w| < 1 / 2 ^ 16 := by
  obtain hw | hw := lt_or_ge |f32val w| 256
  · have htrunc := abs_truncRat_sub_lt (f32val w * 2 ^ 16)
    rw [← (f2x_eq_some_iff.mp h).2] at htrunc
    rw [f32val_x2f_of_abs_lt h hw, lt_div_iff₀ (by positivity)]
    calc |(s32 v : ℚ) / 2 ^ 16 - f32val w| * 2 ^ 16 = |((s32 v : ℚ) / 2 ^ 16 - f32val w) * 2 ^ 16| := by
          rw [abs_mul, abs_of_pos (show (0 : ℚ) < 2 ^ 16 by positivity)]
      _ = |(s32 v : ℚ) - f32val w * 2 ^ 16| := by congr 1; ring
      _ < 1 := htrunc
  · rw [f32val_x2f_of_le_abs h hw, sub_self, abs_zero]
    positivity

end RoundTrip

/-- Settles O31: each law by its lemma above. -/
theorem fixLaws : Obligations.FixLaws :=
  ⟨fun _ _ h => ⟨abs_f32val_x2f_sub_lt h, f32val_x2f_of_abs_lt h, f32val_x2f_of_le_abs h⟩,
    fun _ => x2i_i2x, fun a => ⟨fxmul_one a, fxdiv_one a⟩, fxmul_comm, fun _ _ _ hb ha => fxdiv_of_fxdiv_neg ha hb⟩

end Sys2Proof.Machine

/-! PROOFS of the statements on the timers (spec 41_timer.md). A command word and the checks that come before a unit's
command are said once for every unit (`hasOpcode_of_fields`, `checksInst_of_count`, `checksConfigured_of_count`). What
TMR.DUE answers is `tmrDue_of_period_ne_zero`; that it fires once per bucket rests on `lt_bucket_of_fires`: when the
times do not decrease, a poll fires only in a later bucket than the one polled before it. -/

namespace Sys2Proof.Machine

open Sys2Proof.Config

variable {P : Params}

/-! ### The word and the checks of a command that selects a copy -/

section Selecting

variable {f : Nat → Instr}

/-- R80, R84: commands that differ in INST alone have the words `(n << 8) | OPC`. -/
theorem hasOpcode_of_fields {opc : Nat} (hopc : ∀ n, (f n).opc.toNat = opc) (hinst : ∀ n, (f n).inst = n) :
    HasOpcode opc f := by
  intro n hn
  have hlt : opc < 256 := hopc n ▸ (f n).opc.isLt
  rw [decode_eq_ok_iff, rsvField_eq, opcField_eq, instField_eq, hopc, hinst, BitVec.toNat_ofNat]
  omega

variable {u : CommandUnit} {count : Nat}

/-- R83: the first check. -/
theorem checksInst_of_count (hu : ∀ n, (f n).unit = u) (hinst : ∀ n, (f n).inst = n) (hcount : u.count = some count) :
    ChecksInst count f := by
  intro n s hn
  obtain ⟨einst, -⟩ := decodeChecksInOrder (f n) s count ((hu n).symm ▸ hcount)
  exact einst ((hinst n).symm ▸ hn)

/-- R83: the second check, of a command that is not in NEEDS_NO_CONFIG. -/
theorem checksConfigured_of_count (hu : ∀ n, (f n).unit = u) (hinst : ∀ n, (f n).inst = n)
    (hcount : u.count = some count) (hneeds : ∀ n, (f n).needsNoConfig = false) : ChecksConfigured u count f := by
  intro n s hn hvalid
  obtain ⟨-, eunconf⟩ := decodeChecksInOrder (f n) s count ((hu n).symm ▸ hcount)
  exact eunconf ((hinst n).symm ▸ hn) (hneeds n) (by rwa [hu, hinst])

end Selecting

/-! ### What a TMR command does to its copy -/

/-- A command leaves its copy, or gives it the value that its body answers. -/
theorem copyAfter_cases {α : Type} (ready : α → Bool) (body : α → Verdict α) (a : α) :
    copyAfter ready body a = a ∨ copyAfter ready body a = (body a).after a := by
  unfold copyAfter
  split
  · exact .inr rfl
  · exact .inl rfl

section TmrCopy

variable (s : State P) {ready : Tmr → Bool} {n : Nat} {body : Tmr → Verdict Tmr}

theorem tmrCommand_copy (h : n < P.nTmr) : (s.tmrCommand ready n body).tmr[n] = copyAfter ready body s.tmr[n] := by
  obtain ⟨htmr, -⟩ := copies_of_sansOutcome (tmrCommand_sansOutcome s ready n body)
  simp [htmr]

/-- A command that answers its copy as it was changes RES and STATUS only. -/
theorem tmrCommand_same (h : n < P.nTmr) (hr : ready s.tmr[n] = true) {r0 r1 : Word}
    (hb : body s.tmr[n] = .done s.tmr[n] r0 r1) : s.tmrCommand ready n body = s.completed r0 r1 := by
  rw [tmrCommand_done s ready n body h hr hb, Vector.set_getElem_self]
  rfl

end TmrCopy

section Bodies

variable {now sel v : Word} {t : Tmr}

/-- R132: period 0 never fires. -/
theorem tmrDue_of_period_zero (hp : t.period = 0) : tmrDue now t = .done t 0 0 :=
  if_pos (by rw [hp, u32_zero])

/-- R132: with a period, TMR.DUE stores the bucket and answers whether it differs from the last one. -/
theorem tmrDue_of_period_ne_zero (hp : t.period ≠ 0) {bucket : Nat} (hbucket : bucket = now.toNat / t.period.toNat) :
    tmrDue now t = .done { t with lastBucket := BitVec.ofNat 32 bucket }
      (if bucket ≠ t.lastBucket.toNat then 1 else 0) 0 := by
  have hlt : bucket < 2 ^ 32 := hbucket ▸ (Nat.div_le_self ..).trans_lt now.isLt
  have hdiffers : BitVec.ofNat 32 bucket ≠ t.lastBucket ↔ bucket ≠ t.lastBucket.toNat := by
    rw [ne_eq, ← BitVec.toNat_inj, BitVec.toNat_ofNat, Nat.mod_eq_of_lt hlt]
  have hu : u32 t.period ≠ 0 := fun h => hp (u32_inj.mp (h.trans u32_zero.symm))
  subst hbucket
  simp only [tmrDue, if_neg hu, bitWord, bne_iff_ne, ← hdiffers]
  rfl

/-- R135: a running stopwatch is frozen. -/
theorem tmrStop_of_running (hrun : t.running = true) :
    tmrStop now t = .done { t with frozen := elapsedSince now t.startRef, running := false } 0 0 :=
  if_pos hrun

/-- R135: a stopped one stays. -/
theorem tmrStop_of_stopped (hrun : t.running = false) : tmrStop now t = .done t 0 0 := by
  simp [tmrStop, hrun]

/-- R130: a time difference is the difference of the patterns. -/
theorem elapsedSince_eq (now ref : Word) : elapsedSince now ref = now - ref := by
  refine BitVec.eq_of_toNat_eq ?_
  have hnow := now.isLt
  have href := ref.isLt
  rw [elapsedSince, ofU32, wrapu32, u32, u32, BitVec.toNat_ofNat, BitVec.toNat_sub]
  omega

/-- R137: a selector above 5 names no field. -/
theorem tmrField_of_five_lt {sel : Nat} (t : Tmr) (h : 5 < sel) : tmrField sel t = none := by
  unfold tmrField
  split
  iterate 6 omega
  rfl

theorem tmrRd_of_field (h : tmrField (u32 sel) t = some v) : tmrRd sel t = .done t v 0 := by
  rw [tmrRd, h]

theorem tmrRd_of_no_field (h : tmrField (u32 sel) t = none) : tmrRd sel t = .raise .eArg := by
  rw [tmrRd, h]

end Bodies

/-! ### Which fields a TMR command writes -/

/-- R132 to R136: the fields of copy `n` that the command `i` leaves as they are. -/
def TmrFieldsKept (i : Instr) (n : Nat) (old new : Tmr) : Prop :=
  new.valid = old.valid ∧
  (i ≠ .tmrSetp n → new.period = old.period) ∧
  (i ≠ .tmrDue n → new.lastBucket = old.lastBucket) ∧
  (i ≠ .tmrStart n → new.startRef = old.startRef) ∧
  (i ≠ .tmrStop n → new.frozen = old.frozen) ∧
  (i ≠ .tmrStart n → i ≠ .tmrStop n → new.running = old.running)

theorem tmrFieldsKept_refl (i : Instr) (n : Nat) (t : Tmr) : TmrFieldsKept i n t t :=
  ⟨rfl, fun _ => rfl, fun _ => rfl, fun _ => rfl, fun _ => rfl, fun _ _ => rfl⟩

/-- A command keeps the fields of its copy that its body keeps. -/
theorem tmrCommand_fieldsKept (s : State P) {i : Instr} {ready : Tmr → Bool} {n : Nat} {body : Tmr → Verdict Tmr}
    (h : n < P.nTmr) (hbody : TmrFieldsKept i n s.tmr[n] ((body s.tmr[n]).after s.tmr[n])) :
    TmrFieldsKept i n s.tmr[n] (s.tmrCommand ready n body).tmr[n] := by
  rw [tmrCommand_copy s h]
  obtain e | e := copyAfter_cases ready body s.tmr[n] <;> rw [e]
  · exact tmrFieldsKept_refl i n s.tmr[n]
  · exact hbody

section Bodies

variable (n : Nat) (x : Word) (t : Tmr)

theorem tmrDue_fieldsKept : TmrFieldsKept (.tmrDue n) n t ((tmrDue x t).after t) := by
  rw [tmrDue]
  split
  · exact tmrFieldsKept_refl _ n t
  · simp [Verdict.after, TmrFieldsKept]

theorem tmrSetp_fieldsKept : TmrFieldsKept (.tmrSetp n) n t ((tmrSetp x t).after t) := by
  simp [tmrSetp, Verdict.after, TmrFieldsKept]

theorem tmrStart_fieldsKept : TmrFieldsKept (.tmrStart n) n t ((tmrStart x t).after t) := by
  simp [tmrStart, Verdict.after, TmrFieldsKept]

theorem tmrStop_fieldsKept : TmrFieldsKept (.tmrStop n) n t ((tmrStop x t).after t) := by
  rw [tmrStop]
  split
  · simp [Verdict.after, TmrFieldsKept]
  · exact tmrFieldsKept_refl _ n t

theorem tmrRd_after : (tmrRd x t).after t = t := by
  rw [tmrRd]
  split <;> rfl

end Bodies

/-- A TMR command on its own copy keeps the fields that it does not write. -/
theorem exec_tmr_fieldsKept {i : Instr} {s t : State} (h : i.inst < P_NTMR) (hunit : i.unit = .tmr)
    (hexec : exec i s = .next t) (hinit : i ≠ .tmrInit i.inst) :
    TmrFieldsKept i i.inst s.tmr[i.inst] t.tmr[i.inst] := by
  cases i <;> cases hunit <;> cases hexec
  case tmrInit => exact absurd rfl hinit
  case tmrDue n => exact tmrCommand_fieldsKept s h (tmrDue_fieldsKept n _ _)
  case tmrSetp n => exact tmrCommand_fieldsKept s h (tmrSetp_fieldsKept n _ _)
  case tmrStart n => exact tmrCommand_fieldsKept s h (tmrStart_fieldsKept n _ _)
  case tmrStop n => exact tmrCommand_fieldsKept s h (tmrStop_fieldsKept n _ _)
  case tmrElap n => exact tmrCommand_fieldsKept s h (tmrFieldsKept_refl _ n _)
  case tmrRd n => exact tmrCommand_fieldsKept s h (by rw [tmrRd_after]; exact tmrFieldsKept_refl _ n _)

/-- Settles O20: a command writes no other copy, and on its own each TMR command keeps the fields above. -/
theorem tmrFieldWriters : Obligations.TmrFieldWriters := by
  intro i s t n h hexec hreset hinit
  change TmrFieldsKept i n s.tmr[n] t.tmr[n]
  by_cases hown : i.unit = .tmr ∧ n = i.inst
  · obtain ⟨hunit, rfl⟩ := hown
    exact exec_tmr_fieldsKept h hunit hexec hinit
  · obtain ⟨htmr, -⟩ := commandWritesOnlyItsCopy i s t hreset hexec
    rw [htmr n h (not_and_or.mp hown)]
    exact tmrFieldsKept_refl i n s.tmr[n]

/-! ### Each TMR command -/

/-- Settles O32: TMR.INIT runs on every copy and answers the same new one. -/
theorem tmrInitConstructs : Obligations.TmrInitConstructs :=
  ⟨hasOpcode_of_fields (fun _ => rfl) fun _ => rfl, checksInst_of_count (fun _ => rfl) (fun _ => rfl) rfl,
    fun n h s => congrArg Host.Outcome.next (tmrCommand_done s anyCopy n (tmrInit s.arg0) h rfl rfl)⟩

/-- R132: TMR.DUE on a configured timer with a period. -/
theorem exec_tmrDue_of_period_ne_zero {n : Nat} (h : n < P_NTMR) {s : State} (hv : s.tmr[n].valid = true)
    (hp : s.tmr[n].period ≠ 0) {bucket : Nat} (hbucket : bucket = s.arg0.toNat / s.tmr[n].period.toNat) :
    exec (.tmrDue n) s =
      .next ((s.withTmr n h { s.tmr[n] with lastBucket := BitVec.ofNat 32 bucket }).completed
        (if bucket ≠ s.tmr[n].lastBucket.toNat then 1 else 0) 0) :=
  congrArg Host.Outcome.next (tmrCommand_done s Tmr.valid n _ h hv (tmrDue_of_period_ne_zero hp hbucket))

/-- Settles O33: the two cases of the period. -/
theorem tmrDueFires : Obligations.TmrDueFires := by
  refine ⟨hasOpcode_of_fields (fun _ => rfl) fun _ => rfl, checksInst_of_count (fun _ => rfl) (fun _ => rfl) rfl,
    checksConfigured_of_count (fun _ => rfl) (fun _ => rfl) rfl fun _ => rfl, fun n h s hv => ⟨fun hp => ?_, ?_⟩⟩
  · exact congrArg Host.Outcome.next (tmrCommand_same s h hv (tmrDue_of_period_zero hp))
  · exact fun hp _ => exec_tmrDue_of_period_ne_zero h hv hp

/-- Settles O34: both bodies complete on every copy. -/
theorem tmrSetpAndStart : Obligations.TmrSetpAndStart :=
  ⟨hasOpcode_of_fields (fun _ => rfl) fun _ => rfl, checksInst_of_count (fun _ => rfl) (fun _ => rfl) rfl,
    checksConfigured_of_count (fun _ => rfl) (fun _ => rfl) rfl fun _ => rfl,
    hasOpcode_of_fields (fun _ => rfl) fun _ => rfl, checksInst_of_count (fun _ => rfl) (fun _ => rfl) rfl,
    checksConfigured_of_count (fun _ => rfl) (fun _ => rfl) rfl fun _ => rfl,
    fun n h s hv => ⟨congrArg Host.Outcome.next (tmrCommand_done s Tmr.valid n (tmrSetp s.arg0) h hv rfl),
      congrArg Host.Outcome.next (tmrCommand_done s Tmr.valid n (tmrStart s.arg0) h hv rfl)⟩⟩

/-- Settles O35: the two cases of `running`. -/
theorem tmrStopAndElap : Obligations.TmrStopAndElap := by
  refine ⟨hasOpcode_of_fields (fun _ => rfl) fun _ => rfl, checksInst_of_count (fun _ => rfl) (fun _ => rfl) rfl,
    checksConfigured_of_count (fun _ => rfl) (fun _ => rfl) rfl fun _ => rfl,
    hasOpcode_of_fields (fun _ => rfl) fun _ => rfl, checksInst_of_count (fun _ => rfl) (fun _ => rfl) rfl,
    checksConfigured_of_count (fun _ => rfl) (fun _ => rfl) rfl fun _ => rfl,
    fun n h s hv => ⟨fun hrun => ?_, fun hrun => ?_⟩⟩
  · rw [← elapsedSince_eq]
    exact ⟨congrArg Host.Outcome.next (tmrCommand_done s _ n _ h hv (tmrStop_of_running hrun)),
      congrArg Host.Outcome.next (tmrCommand_same s h hv (by rw [tmrElap, if_pos hrun]))⟩
  · exact ⟨congrArg Host.Outcome.next (tmrCommand_same s h hv (tmrStop_of_stopped hrun)),
      congrArg Host.Outcome.next (tmrCommand_same s h hv (by simp [tmrElap, hrun]))⟩

/-- R137: TMR.RD with a selector that names a field. -/
theorem exec_tmrRd_of_field {n : Nat} (h : n < P_NTMR) {s : State} {v : Word}
    (hfield : tmrField (u32 s.arg0) s.tmr[n] = some v) : exec (.tmrRd n) s = .next (s.completed v 0) :=
  congrArg Host.Outcome.next (tmrCommand_same s h rfl (tmrRd_of_field hfield))

/-- Settles O36: each selector by the field it names. -/
theorem tmrRdReadsFields : Obligations.TmrRdReadsFields := by
  refine ⟨hasOpcode_of_fields (fun _ => rfl) fun _ => rfl, checksInst_of_count (fun _ => rfl) (fun _ => rfl) rfl,
    fun n h s => ⟨?_, ?_, ?_, ?_, ?_, ?_, fun hsel => congrArg Host.Outcome.next ?_⟩⟩
  iterate 6
    intro hsel
    exact exec_tmrRd_of_field h (by rw [hsel]; rfl)
  rw [tmrCommand_raise s anyCopy n _ h rfl (tmrRd_of_no_field (tmrField_of_five_lt _ hsel)),
    raise_eq_faulted s (by decide)]

/-! ### Polls -/

/-- A command issued for each operand of a list: the first, then the rest. -/
theorem withArgs0_cons {i : Instr} {x : Word} {xs rs : List Word} {s t u : State}
    (hfirst : exec i { s with arg0 := x } = .next t) (hrest : withArgs0 i xs t = some (u, rs)) :
    withArgs0 i (x :: xs) s = some (u, t.res0 :: rs) := by
  simp only [withArgs0, withArg0, hfirst, hrest]

section Polls

variable {n : Nat} (h : n < P_NTMR) {s : State} (hv : s.tmr[n].valid = true) (hp : s.tmr[n].period ≠ 0)
include hv hp

/-- R132: one poll. -/
theorem poll_tmrDue (x : Word) : ∃ t, exec (.tmrDue n) { s with arg0 := x } = .next t ∧
    t.tmr[n] = { s.tmr[n] with lastBucket := BitVec.ofNat 32 (u32 x / s.tmr[n].period.toNat) } ∧
    t.res0 = if u32 x / s.tmr[n].period.toNat ≠ s.tmr[n].lastBucket.toNat then 1 else 0 :=
  ⟨_, exec_tmrDue_of_period_ne_zero h (s := { s with arg0 := x }) hv hp rfl, Vector.getElem_set_self _, rfl⟩

/-- R132: polls of a configured timer with a period answer `fires`, each from the bucket of the one before. -/
theorem withArgs0_tmrDue (times : List Word) : ∃ t, withArgs0 (.tmrDue n) times s =
    some (t, fires s.tmr[n].period.toNat s.tmr[n].lastBucket.toNat times) := by
  induction times generalizing s with
  | nil => exact ⟨s, rfl⟩
  | cons x xs ih =>
    obtain ⟨t, hexec, hcopy, hres⟩ := poll_tmrDue h hv hp x
    obtain ⟨u, hrest⟩ := ih (s := t) (by rw [hcopy]; exact hv) (by rw [hcopy]; exact hp)
    have hlt : u32 x / s.tmr[n].period.toNat < 2 ^ 32 := (Nat.div_le_self ..).trans_lt (u32_lt x)
    rw [hcopy, BitVec.toNat_ofNat, Nat.mod_eq_of_lt hlt] at hrest
    exact ⟨u, by rw [withArgs0_cons hexec hrest, hres, fires]⟩

end Polls

section Buckets

variable {period : Nat}

/-- R138 item 1: at nondecreasing times a poll fires only in a later bucket than the one polled before all of them. -/
theorem lt_bucket_of_fires {times : List Word} {last : Nat} (hfrom : ∀ x ∈ times, last ≤ u32 x / period)
    (hsorted : times.Pairwise fun a b => u32 a ≤ u32 b) {p : Word × Word} (hmem : p ∈ times.zip (fires period last times))
    (hfires : p.2 = 1) : last < u32 p.1 / period := by
  induction times generalizing last with
  | nil => cases hmem
  | cons x xs ih =>
    have hx : last ≤ u32 x / period := hfrom x List.mem_cons_self
    obtain ⟨hle, hxs⟩ := List.pairwise_cons.mp hsorted
    rw [fires, List.zip_cons_cons, List.mem_cons] at hmem
    rcases hmem with rfl | hmem
    · have hne : u32 x / period ≠ last := by
        by_contra heq
        simp [heq] at hfires
      exact lt_of_le_of_ne hx hne.symm
    · exact hx.trans_lt (ih (fun y hy => Nat.div_le_div_right (hle y hy)) hxs hmem)

/-- A poll, with its answer, that fires in the given bucket. -/
def firesIn (period bucket : Nat) (p : Word × Word) : Bool := decide (u32 p.1 / period = bucket) && p.2 == 1

theorem firesIn_iff {bucket : Nat} {p : Word × Word} :
    firesIn period bucket p = true ↔ u32 p.1 / period = bucket ∧ p.2 = 1 := by
  simp [firesIn]

/-- R138 item 1: after a poll that fires in a bucket, none fires in it again. -/
theorem length_filter_firesIn_le_one {times : List Word} (last bucket : Nat)
    (hsorted : times.Pairwise fun a b => u32 a ≤ u32 b) :
    ((times.zip (fires period last times)).filter (firesIn period bucket)).length ≤ 1 := by
  induction times generalizing last with
  | nil => exact Nat.zero_le 1
  | cons x xs ih =>
    obtain ⟨hle, hxs⟩ := List.pairwise_cons.mp hsorted
    rw [fires, List.zip_cons_cons]
    generalize (if u32 x / period ≠ last then 1 else 0 : Word) = r
    by_cases hhead : firesIn period bucket (x, r) = true
    · have hnone : (xs.zip (fires period (u32 x / period) xs)).filter (firesIn period bucket) = [] := by
        refine List.filter_eq_nil_iff.mpr fun p hp hin => ?_
        obtain ⟨hbucket, hfires⟩ := firesIn_iff.mp hin
        have hlater := lt_bucket_of_fires (fun y hy => Nat.div_le_div_right (hle y hy)) hxs hp hfires
        exact hlater.ne ((firesIn_iff.mp hhead).1.trans hbucket.symm)
      rw [List.filter_cons_of_pos hhead, hnone, List.length_singleton]
    · rw [List.filter_cons_of_neg hhead]
      exact ih (u32 x / period) hxs

end Buckets

/-- Settles O37: the polls answer `fires`, which answers 1 at most once in a bucket. -/
theorem tmrFiresOncePerBucket : Obligations.TmrFiresOncePerBucket :=
  fun n h s times hv hp => ⟨withArgs0_tmrDue h hv hp times, fun hsorted bucket =>
    length_filter_firesIn_le_one (period := s.tmr[n].period.toNat) s.tmr[n].lastBucket.toNat bucket hsorted⟩

end Sys2Proof.Machine

/-! PROOFS of the statements on the filters (spec 42_iir.md). What IIR.STEP does is `exec_iirStep`: it gives the copy
the estimate `lowpassNext`. The rules of R155 are facts about that function: while the difference does not wrap, the
estimate moves by the floored product (`s32_lowpassNext`), which lies between 0 and the difference. -/

namespace Sys2Proof.Machine

open Sys2Proof.Config

variable {P : Params}

/-! ### What an IIR command does to its copy -/

section IirCopy

variable (s : State P) {ready : Iir → Bool} {n : Nat} {body : Iir → Verdict Iir}

theorem iirCommand_copy (h : n < P.nIir) : (s.iirCommand ready n body).iir[n] = copyAfter ready body s.iir[n] := by
  obtain ⟨-, hiir, -⟩ := copies_of_sansOutcome (iirCommand_sansOutcome s ready n body)
  simp [hiir]

/-- A command that answers its copy as it was changes RES and STATUS only. -/
theorem iirCommand_same (h : n < P.nIir) (hr : ready s.iir[n] = true) {r0 r1 : Word}
    (hb : body s.iir[n] = .done s.iir[n] r0 r1) : s.iirCommand ready n body = s.completed r0 r1 := by
  rw [iirCommand_done s ready n body h hr hb, Vector.set_getElem_self]
  rfl

/-- A command whose own check fails leaves the block but for its code. -/
theorem iirCommand_faulted (h : n < P.nIir) (hr : ready s.iir[n] = true) {c : Code} (hc : c ≠ .ok)
    (hb : body s.iir[n] = .raise c) : s.iirCommand ready n body = s.faulted c := by
  rw [iirCommand_raise s ready n body h hr hb, raise_eq_faulted s hc]

end IirCopy

section Bodies

variable {w x freq period tc init sel v : Word} {m : FilterMode} (f : Iir)

/-- R150: no mode above 1. -/
theorem filterMode_of_one_lt (h : 1 < u32 w) : filterMode w = none := by
  unfold filterMode
  split
  iterate 2 omega
  rfl

/-- R151: a mode above 1 raises E_ARG, whatever the cutoff. -/
theorem iirInit_of_no_mode (h : filterMode w = none) : iirInit w freq period init f = .raise .eArg := by
  rw [iirInit, h]

theorem iirInit_of_no_tc (hm : filterMode w = some m) (htc : tcfix freq period = none) :
    iirInit w freq period init f = .raise .eFrange := by
  simp only [iirInit, hm, htc]

theorem iirInit_of_mode (hm : filterMode w = some m) (htc : tcfix freq period = some tc) :
    iirInit w freq period init f = .done (constructedIir m tc init) 0 0 := by
  simp only [iirInit, hm, htc]

theorem iirInittc_of_no_mode (h : filterMode w = none) : iirInittc w tc init f = .raise .eArg := by
  rw [iirInittc, h]

theorem iirInittc_of_mode (hm : filterMode w = some m) :
    iirInittc w tc init f = .done (constructedIir m tc init) 0 0 := by
  rw [iirInittc, hm]

/-- R153: LOWPASS answers the updated estimate. -/
theorem iirStep_lowpass (hm : f.mode = .lowpass) {lp : Word} (hlp : lp = lowpassNext x f.lp f.tc) :
    iirStep x f = .done { f with lp := lp, out := lp } lp 0 := by
  simp only [iirStep, hm, hlp]

/-- R153: HIGHPASS answers the input less the updated estimate. -/
theorem iirStep_highpass (hm : f.mode = .highpass) {lp : Word} (hlp : lp = lowpassNext x f.lp f.tc) :
    iirStep x f = .done { f with lp := lp, out := x - lp } (x - lp) 0 := by
  simp only [iirStep, hm, hlp, fxsub_eq]

/-- R154: a selector above 4 names no field. -/
theorem iirField_of_four_lt {sel : Nat} (h : 4 < sel) : iirField sel f = none := by
  unfold iirField
  split
  iterate 5 omega
  rfl

theorem iirRd_of_field (h : iirField (u32 sel) f = some v) : iirRd sel f = .done f v 0 := by
  rw [iirRd, h]

theorem iirRd_of_no_field (h : iirField (u32 sel) f = none) : iirRd sel f = .raise .eArg := by
  rw [iirRd, h]

theorem iirRd_after : (iirRd sel f).after f = f := by
  rw [iirRd]
  split <;> rfl

end Bodies

/-- R150: the mode as IIR.RD answers it. -/
theorem FilterMode.toWord_eq_ite (m : FilterMode) : m.toWord = if m = .highpass then 1 else 0 := by
  cases m <;> rfl

/-- R153: the updated estimate, the product written out as a floored quotient. -/
theorem lowpassNext_eq_fdiv (x lp tc : Word) :
    lowpassNext x lp tc = lp + BitVec.ofInt 32 (((x - lp).toInt * tc.toInt).fdiv (2 ^ 16)) := by
  rw [lowpassNext, fxadd_eq, fxsub_eq, fxmul_eq_fdiv]

/-! ### Each IIR command -/

section EachCommand

variable {n : Nat} (h : n < P_NIIR) {s : State}
include h

/-- R151: IIR.INIT with a mode. -/
theorem exec_iirInit_of_mode {m : FilterMode} (hm : filterMode s.arg0 = some m) : exec (.iirInit n) s =
    .next ((tcfix s.arg1 s.arg2).elim (s.faulted .eFrange) fun tc =>
      (s.withIir n h (constructedIir m tc s.arg3)).completed 0 0) := by
  refine congrArg Host.Outcome.next ?_
  cases htc : tcfix s.arg1 s.arg2 with
  | none => exact iirCommand_faulted s h rfl (by decide) (iirInit_of_no_tc _ hm htc)
  | some tc => exact iirCommand_done s _ n _ h rfl (iirInit_of_mode _ hm htc)

/-- R152: IIR.INITTC with a mode. -/
theorem exec_iirInittc_of_mode {m : FilterMode} (hm : filterMode s.arg0 = some m) : exec (.iirInittc n) s =
    .next ((s.withIir n h (constructedIir m s.arg1 s.arg3)).completed 0 0) :=
  congrArg Host.Outcome.next (iirCommand_done s _ n _ h rfl (iirInittc_of_mode _ hm))

/-- R154: IIR.RD with a selector that names a field. -/
theorem exec_iirRd_of_field {v : Word} (hfield : iirField (u32 s.arg0) s.iir[n] = some v) :
    exec (.iirRd n) s = .next (s.completed v 0) :=
  congrArg Host.Outcome.next (iirCommand_same s h rfl (iirRd_of_field _ hfield))

/-- R153: all that IIR.STEP does to a configured filter: the copy takes the updated estimate, and the answer, which is
also its output, depends on the mode. -/
theorem exec_iirStep (hv : s.iir[n].valid = true) : ∃ t, exec (.iirStep n) s = .next t ∧ t.arg0 = s.arg0 ∧
    t.iir[n] = { s.iir[n] with lp := lowpassNext s.arg0 s.iir[n].lp s.iir[n].tc, out := t.res0 } ∧
    (s.iir[n].mode = .lowpass → t.res0 = t.iir[n].lp) ∧
    (s.iir[n].mode = .highpass → t.res0 = s.arg0 - t.iir[n].lp) := by
  cases hm : s.iir[n].mode with
  | lowpass =>
    exact ⟨_, congrArg Host.Outcome.next (iirCommand_done s _ n _ h hv (iirStep_lowpass _ hm rfl)), rfl,
      by simp, by simp, nofun⟩
  | highpass =>
    exact ⟨_, congrArg Host.Outcome.next (iirCommand_done s _ n _ h hv (iirStep_highpass _ hm rfl)), rfl,
      by simp, nofun, by simp⟩

end EachCommand

/-- Settles O38: a mode, whatever its time constant converts to, and a mode above 1. -/
theorem iirInitConstructs : Obligations.IirInitConstructs := by
  refine ⟨hasOpcode_of_fields (fun _ => rfl) fun _ => rfl, checksInst_of_count (fun _ => rfl) (fun _ => rfl) rfl,
    fun n h s => ⟨fun h0 => ?_, fun h1 => ?_, fun hmode => congrArg Host.Outcome.next ?_⟩⟩
  · exact exec_iirInit_of_mode h (m := .lowpass) (by rw [h0]; rfl)
  · exact exec_iirInit_of_mode h (m := .highpass) (by rw [h1]; rfl)
  · exact iirCommand_faulted s h rfl (by decide) (iirInit_of_no_mode _ (filterMode_of_one_lt hmode))

/-- Settles O39: a mode, and a mode above 1. -/
theorem iirInittcConstructs : Obligations.IirInittcConstructs := by
  refine ⟨hasOpcode_of_fields (fun _ => rfl) fun _ => rfl, checksInst_of_count (fun _ => rfl) (fun _ => rfl) rfl,
    fun n h s => ⟨fun h0 => ?_, fun h1 => ?_, fun hmode => congrArg Host.Outcome.next ?_⟩⟩
  · exact exec_iirInittc_of_mode h (m := .lowpass) (by rw [h0]; rfl)
  · exact exec_iirInittc_of_mode h (m := .highpass) (by rw [h1]; rfl)
  · exact iirCommand_faulted s h rfl (by decide) (iirInittc_of_no_mode _ (filterMode_of_one_lt hmode))

/-- Settles O40: the body completes in either mode. -/
theorem iirStepFilters : Obligations.IirStepFilters := by
  refine ⟨hasOpcode_of_fields (fun _ => rfl) fun _ => rfl, checksInst_of_count (fun _ => rfl) (fun _ => rfl) rfl,
    checksConfigured_of_count (fun _ => rfl) (fun _ => rfl) rfl fun _ => rfl, fun n h s lp hv hlp => ?_⟩
  rw [← lowpassNext_eq_fdiv] at hlp
  exact ⟨fun hm => congrArg Host.Outcome.next (iirCommand_done s _ n _ h hv (iirStep_lowpass _ hm hlp)),
    fun hm => congrArg Host.Outcome.next (iirCommand_done s _ n _ h hv (iirStep_highpass _ hm hlp))⟩

/-- Settles O41: each selector by the field it names. -/
theorem iirRdReadsFields : Obligations.IirRdReadsFields := by
  refine ⟨hasOpcode_of_fields (fun _ => rfl) fun _ => rfl, checksInst_of_count (fun _ => rfl) (fun _ => rfl) rfl,
    fun n h s => ?_⟩
  rw [← FilterMode.toWord_eq_ite]
  refine ⟨?_, ?_, ?_, ?_, ?_, fun hsel => congrArg Host.Outcome.next ?_⟩
  iterate 5
    intro hsel
    exact exec_iirRd_of_field h (by rw [hsel]; rfl)
  exact iirCommand_faulted s h rfl (by decide) (iirRd_of_no_field _ (iirField_of_four_lt _ hsel))

/-! ### Which fields an IIR command writes -/

/-- R150: the fields of copy `n` that the command `i` leaves as they are. -/
def IirFieldsKept (i : Instr) (n : Nat) (old new : Iir) : Prop :=
  new.valid = old.valid ∧ new.mode = old.mode ∧ new.tc = old.tc ∧
  (i ≠ .iirStep n → new.lp = old.lp ∧ new.out = old.out)

theorem iirFieldsKept_refl (i : Instr) (n : Nat) (f : Iir) : IirFieldsKept i n f f :=
  ⟨rfl, rfl, rfl, fun _ => ⟨rfl, rfl⟩⟩

theorem iirStep_fieldsKept (n : Nat) (x : Word) (f : Iir) : IirFieldsKept (.iirStep n) n f ((iirStep x f).after f) :=
  ⟨rfl, rfl, rfl, (absurd rfl ·)⟩

/-- A command keeps the fields of its copy that its body keeps. -/
theorem iirCommand_fieldsKept (s : State P) {i : Instr} {ready : Iir → Bool} {n : Nat} {body : Iir → Verdict Iir}
    (h : n < P.nIir) (hbody : IirFieldsKept i n s.iir[n] ((body s.iir[n]).after s.iir[n])) :
    IirFieldsKept i n s.iir[n] (s.iirCommand ready n body).iir[n] := by
  rw [iirCommand_copy s h]
  obtain e | e := copyAfter_cases ready body s.iir[n] <;> rw [e]
  · exact iirFieldsKept_refl i n s.iir[n]
  · exact hbody

/-- An IIR command on its own copy keeps the fields that it does not write. -/
theorem exec_iir_fieldsKept {i : Instr} {s t : State} (h : i.inst < P_NIIR) (hunit : i.unit = .iir)
    (hexec : exec i s = .next t) (hinit : i ≠ .iirInit i.inst) (hinittc : i ≠ .iirInittc i.inst) :
    IirFieldsKept i i.inst s.iir[i.inst] t.iir[i.inst] := by
  cases i <;> cases hunit <;> cases hexec
  case iirInit => exact absurd rfl hinit
  case iirInittc => exact absurd rfl hinittc
  case iirStep n => exact iirCommand_fieldsKept s h (iirStep_fieldsKept n _ _)
  case iirRd n => exact iirCommand_fieldsKept s h (by rw [iirRd_after]; exact iirFieldsKept_refl _ n _)

/-- Settles O21: a command writes no other copy, and on its own each IIR command keeps the fields above. -/
theorem iirFieldWriters : Obligations.IirFieldWriters := by
  intro i s t n h hexec hreset hinit hinittc
  change IirFieldsKept i n s.iir[n] t.iir[n]
  by_cases hown : i.unit = .iir ∧ n = i.inst
  · obtain ⟨hunit, rfl⟩ := hown
    exact exec_iir_fieldsKept h hunit hexec hinit hinittc
  · obtain ⟨-, hiir, -⟩ := commandWritesOnlyItsCopy i s t hreset hexec
    rw [hiir n h (not_and_or.mp hown)]
    exact iirFieldsKept_refl i n s.iir[n]

/-! ### The high-pass complement -/

section Complement

variable {a b : Nat} (ha : a < P_NIIR) (hb : b < P_NIIR)

/-- R155 item 1: the copies may stand in two states, since each run goes on from its own. -/
theorem withArgs0_iirStep_complement {s s' : State} (inputs : List Word)
    (hav : s.iir[a].valid = true) (hbv : s'.iir[b].valid = true)
    (ham : s.iir[a].mode = .lowpass) (hbm : s'.iir[b].mode = .highpass)
    (htc : s.iir[a].tc = s'.iir[b].tc) (hlp : s.iir[a].lp = s'.iir[b].lp) :
    ∃ t u lows highs, withArgs0 (.iirStep a) inputs s = some (t, lows) ∧
      withArgs0 (.iirStep b) inputs s' = some (u, highs) ∧ List.zipWith (· + ·) lows highs = inputs := by
  induction inputs generalizing s s' with
  | nil => exact ⟨s, s', [], [], rfl, rfl, rfl⟩
  | cons x xs ih =>
    obtain ⟨t, hexec, -, hcopy, hres, -⟩ := exec_iirStep ha (s := { s with arg0 := x }) hav
    obtain ⟨t', hexec', -, hcopy', -, hres'⟩ := exec_iirStep hb (s := { s' with arg0 := x }) hbv
    have hlp' : t.iir[a].lp = t'.iir[b].lp := by simp only [hcopy, hcopy', hlp, htc]
    obtain ⟨u, u', lows, highs, hlows, hhighs, hsum⟩ := ih (s := t) (s' := t') (by rw [hcopy]; exact hav)
      (by rw [hcopy']; exact hbv) (by rw [hcopy]; exact ham) (by rw [hcopy']; exact hbm)
      (by rw [hcopy, hcopy']; exact htc) hlp'
    refine ⟨u, u', _, _, withArgs0_cons hexec hlows, withArgs0_cons hexec' hhighs, ?_⟩
    rw [List.zipWith_cons_cons, hsum, hres ham, hres' hbm, hlp', add_sub_cancel]

end Complement

/-- Settles O42: both runs start from one state. -/
theorem iirHighPassComplement : Obligations.IirHighPassComplement :=
  fun _ _ ha hb _ inputs hav hbv ham hbm htc hlp =>
    withArgs0_iirStep_complement ha hb inputs hav hbv ham hbm htc hlp

/-! ### How the estimate moves -/

/-- R155 item 4: with the time constant 1.0 the estimate becomes the input, even when the difference wraps. -/
theorem lowpassNext_one {x lp tc : Word} (h : s32 tc = 2 ^ 16) : lowpassNext x lp tc = x := by
  rw [s32_inj.mp (h.trans s32_one.symm), lowpassNext, fxmul_one, fxadd_eq, fxsub_eq, add_sub_cancel]

section FlooredProduct

variable {d c : Int} (h0 : 0 ≤ c) (h1 : c ≤ 2 ^ 16)
include h0 h1

/-- R155 item 2: below the input the floored product lies between 0 and the difference. -/
theorem asr_mul_of_nonneg (hd : 0 ≤ d) : 0 ≤ asr (d * c) 16 ∧ asr (d * c) 16 ≤ d := by
  have hlo : 0 ≤ d * c := mul_nonneg hd h0
  have hhi : d * c ≤ d * 2 ^ 16 := mul_le_mul_of_nonneg_left h1 hd
  rw [asr]
  omega

/-- R155 item 2: above it, between the difference and 0. -/
theorem asr_mul_of_nonpos (hd : d ≤ 0) : d ≤ asr (d * c) 16 ∧ asr (d * c) 16 ≤ 0 := by
  have hlo : d * 2 ^ 16 ≤ d * c := mul_le_mul_of_nonpos_left h1 hd
  have hhi : d * c ≤ 0 := mul_nonpos_of_nonpos_of_nonneg hd h0
  rw [asr]
  omega

end FlooredProduct

section Estimate

variable {x lp tc : Word} (htc0 : 0 ≤ s32 tc) (htc1 : s32 tc < 2 ^ 16) (hd : |s32 x - s32 lp| < 2 ^ 31)
include htc0 htc1 hd

/-- R155 item 2: while the difference does not wrap, nothing else in the update does. -/
theorem s32_lowpassNext : s32 (lowpassNext x lp tc) = s32 lp + asr ((s32 x - s32 lp) * s32 tc) 16 := by
  obtain ⟨hlo, hhi⟩ := abs_lt.mp hd
  have hx := s32_lower x
  have hx' := s32_upper x
  have hlp := s32_lower lp
  have hlp' := s32_upper lp
  have hsub : s32 (fxsub x lp) = s32 x - s32 lp := s32_wrap32 (by omega) (by omega)
  have hmove := (le_total 0 (s32 x - s32 lp)).imp (asr_mul_of_nonneg htc0 htc1.le) (asr_mul_of_nonpos htc0 htc1.le)
  have hprod : s32 (fxmul (fxsub x lp) tc) = asr ((s32 x - s32 lp) * s32 tc) 16 := by
    rw [fxmul, hsub]
    exact s32_wrap32 (by omega) (by omega)
  rw [lowpassNext, fxadd, hprod]
  exact s32_wrap32 (by omega) (by omega)

/-- R155 item 2: the estimate rises toward an input above it and never passes it. -/
theorem lowpassNext_from_below (hle : s32 lp ≤ s32 x) :
    s32 lp ≤ s32 (lowpassNext x lp tc) ∧ s32 (lowpassNext x lp tc) ≤ s32 x := by
  have hmove := asr_mul_of_nonneg htc0 htc1.le (sub_nonneg.mpr hle)
  rw [s32_lowpassNext htc0 htc1 hd]
  omega

/-- R155 item 2: it falls toward an input below it and never passes it. -/
theorem lowpassNext_from_above (hle : s32 x ≤ s32 lp) :
    s32 x ≤ s32 (lowpassNext x lp tc) ∧ s32 (lowpassNext x lp tc) ≤ s32 lp := by
  have hmove := asr_mul_of_nonpos htc0 htc1.le (sub_nonpos.mpr hle)
  rw [s32_lowpassNext htc0 htc1 hd]
  omega

/-- R155 item 3: from above the estimate always moves, since the floor of a negative product is below 0. -/
theorem lowpassNext_lt (hpos : 0 < s32 tc) (hlt : s32 x < s32 lp) : s32 (lowpassNext x lp tc) < s32 lp := by
  have hneg : (s32 x - s32 lp) * s32 tc < 0 := mul_neg_of_neg_of_pos (sub_neg.mpr hlt) hpos
  rw [s32_lowpassNext htc0 htc1 hd, asr]
  omega

/-- R155 item 3: from below it stalls where the product is below one unit. -/
theorem lowpassNext_stalls (hle : s32 lp ≤ s32 x) (hsmall : (s32 x - s32 lp) * s32 tc < 2 ^ 16) :
    lowpassNext x lp tc = lp := by
  have hnonneg : 0 ≤ (s32 x - s32 lp) * s32 tc := mul_nonneg (sub_nonneg.mpr hle) htc0
  rw [← s32_inj, s32_lowpassNext htc0 htc1 hd, asr]
  omega

/-- R155 item 3: and only there. -/
theorem lt_lowpassNext (hlarge : 2 ^ 16 ≤ (s32 x - s32 lp) * s32 tc) : s32 lp < s32 (lowpassNext x lp tc) := by
  rw [s32_lowpassNext htc0 htc1 hd, asr]
  omega

end Estimate

/-- Settles O43: the estimate after a step is `lowpassNext`. -/
theorem iirNoOvershoot : Obligations.IirNoOvershoot := by
  intro n h s hv
  obtain ⟨t, hexec, -, hcopy, -⟩ := exec_iirStep h hv
  have hlp : t.iir[n].lp = lowpassNext s.arg0 s.iir[n].lp s.iir[n].tc := by rw [hcopy]
  refine ⟨fun h0 h1 hd => ⟨t, hexec, ?_⟩, fun hone => ⟨t, hexec, hlp.trans (lowpassNext_one hone)⟩⟩
  rw [hlp]
  exact ⟨lowpassNext_from_below h0 h1 hd, lowpassNext_from_above h0 h1 hd⟩

/-! ### Settling under a constant input -/

/-- The estimate after `k` steps with the same input. -/
def lowpassAfter (x tc : Word) : Nat → Word → Word
  | 0, lp => lp
  | k + 1, lp => lowpassAfter x tc k (lowpassNext x lp tc)

/-- A command issued again after its first time. -/
theorem repeated_succ {i : Instr} {s t : State} (hexec : exec i s = .next t) (k : Nat) :
    repeated i (k + 1) s = repeated i k t := by
  simp only [repeated, hexec]

theorem repeated_iirStep {n : Nat} (h : n < P_NIIR) (k : Nat) {s : State} (hv : s.iir[n].valid = true) :
    ∃ t, repeated (.iirStep n) k s = some t ∧ t.iir[n].lp = lowpassAfter s.arg0 s.iir[n].tc k s.iir[n].lp := by
  induction k generalizing s with
  | zero => exact ⟨s, rfl, rfl⟩
  | succ k ih =>
    obtain ⟨t, hexec, harg, hcopy, -⟩ := exec_iirStep h hv
    rw [repeated_succ hexec]
    obtain ⟨u, hrest, hlp⟩ := ih (s := t) (by rw [hcopy]; exact hv)
    exact ⟨u, hrest, by rw [hlp, harg, hcopy, lowpassAfter]⟩

section Settling

variable {x tc : Word} (hpos : 0 < s32 tc) (htc1 : s32 tc < 2 ^ 16)
include hpos htc1

/-- R155 item 3: from above, as many steps as raw units reach the input. -/
theorem lowpassAfter_from_above {k : Nat} {lp : Word} (hd : |s32 x - s32 lp| < 2 ^ 31) (hle : s32 x ≤ s32 lp)
    (hk : s32 lp - s32 x ≤ k) : lowpassAfter x tc k lp = x := by
  induction k generalizing lp with
  | zero =>
    rw [lowpassAfter, ← s32_inj]
    omega
  | succ k ih =>
    obtain ⟨hlo, hhi⟩ := lowpassNext_from_above hpos.le htc1 hd hle
    have hmove := lowpassNext_lt hpos.le htc1 hd hpos
    rw [abs_lt] at hd
    exact ih (abs_lt.mpr (by omega)) hlo (by omega)

/-- R155 item 3: from below, as many steps as raw units end where the product is below one unit. The second case of `hk`
carries the induction: an estimate that has stalled stays, however few steps are left. -/
theorem lowpassAfter_from_below {k : Nat} {lp : Word} (hd : |s32 x - s32 lp| < 2 ^ 31) (hle : s32 lp ≤ s32 x)
    (hk : s32 x - s32 lp ≤ k ∨ (s32 x - s32 lp) * s32 tc < 2 ^ 16) : s32 (lowpassAfter x tc k lp) ≤ s32 x ∧
      (s32 x - s32 (lowpassAfter x tc k lp)) * s32 tc < 2 ^ 16 := by
  induction k generalizing lp with
  | zero =>
    refine ⟨hle, hk.elim (fun hzero => ?_) id⟩
    have heq : s32 x - s32 lp = 0 := by omega
    simp [lowpassAfter, heq]
  | succ k ih =>
    by_cases hsmall : (s32 x - s32 lp) * s32 tc < 2 ^ 16
    · rw [lowpassAfter, lowpassNext_stalls hpos.le htc1 hd hle hsmall]
      exact ih hd hle (.inr hsmall)
    · obtain ⟨-, hhi⟩ := lowpassNext_from_below hpos.le htc1 hd hle
      have hmove := lt_lowpassNext hpos.le htc1 hd (not_lt.mp hsmall)
      have hfew := hk.resolve_right hsmall
      rw [abs_lt] at hd
      exact ih (abs_lt.mpr (by omega)) hhi (.inl (by omega))

end Settling

/-- Settles O44: the estimate after repeated steps is `lowpassAfter`. -/
theorem iirSettles : Obligations.IirSettles := by
  intro n h s hv hpos htc1 hd
  refine ⟨fun hle => ?_, fun hle => ?_, fun hle hsmall => ?_⟩
  · obtain ⟨t, hrun, hlp⟩ := repeated_iirStep h (s32 s.iir[n].lp - s32 s.arg0).toNat hv
    exact ⟨t, hrun, hlp.trans (lowpassAfter_from_above hpos htc1 hd hle (Int.self_le_toNat _))⟩
  · obtain ⟨t, hrun, hlp⟩ := repeated_iirStep h (s32 s.arg0 - s32 s.iir[n].lp).toNat hv
    refine ⟨t, hrun, ?_⟩
    rw [hlp]
    exact lowpassAfter_from_below hpos htc1 hd hle (.inl (Int.self_le_toNat _))
  · obtain ⟨t, hexec, -, hcopy, -⟩ := exec_iirStep h hv
    refine ⟨t, hexec, ?_⟩
    rw [hcopy]
    exact lowpassNext_stalls hpos.le htc1 hd hle hsmall

end Sys2Proof.Machine

/-! PROOFS of the statements on the moving averages (spec 43_mav.md). What MAV.INIT and MAV.STEP do is `exec_mavInit`
and `exec_mavStep`, from the invariant. The rule of R174 rests on `Mav.Holds`: the slots of a copy, read from the cursor
round the window, are its last samples, oldest first; MAV.STEP replaces the first of them by a new last one. -/

namespace Sys2Proof.Machine

open Sys2Proof.Config

variable {P : Params}

/-! ### What a MAV command does to its copy -/

section MavCopy

variable (s : State P) {ready : Mav → Bool} {n : Nat} {body : Mav → Verdict Mav}

theorem mavCommand_copy (h : n < P.nMav) : (s.mavCommand ready n body).mav[n] = copyAfter ready body s.mav[n] := by
  obtain ⟨-, -, hmav, -⟩ := copies_of_sansOutcome (mavCommand_sansOutcome s ready n body)
  simp [hmav]

/-- A command whose own check fails leaves the block but for its code. -/
theorem mavCommand_faulted (h : n < P.nMav) (hr : ready s.mav[n] = true) {c : Code} (hc : c ≠ .ok)
    (hb : body s.mav[n] = .raise c) : s.mavCommand ready n body = s.faulted c := by
  rw [mavCommand_raise s ready n body h hr hb, raise_eq_faulted s hc]

@[simp] theorem completed_withMav_copy (h : n < P.nMav) (new : Mav) (r0 r1 : Word) :
    ((s.withMav n h new).completed r0 r1).mav[n] = new := by
  simp [State.completed, State.withMav]

end MavCopy

/-- R171: the product that MAV.INIT stores fits the 64 bits of the sum. -/
theorem s64_wrap64_fill (win fill : Word) : s64 (wrap64 (u32 win * s32 fill)) = u32 win * s32 fill := by
  have hsum := slotSum_bufFill (m := []) ⟨.nil, nofun⟩ fill (le_refl (u32 win))
  exact hsum ▸ s64_wrap64_slotSum _ win

section Bodies

variable {capacity : Nat}

/-- R172: from a copy that meets the invariant no part of MAV.STEP wraps. -/
theorem mavStep_done {a : Mav} (ha : a.Inv capacity) (hv : a.valid = true) (x : Word) :
    ∃ (sum : Word64) (out : Word) (buf : SampleMemory),
      mavStep capacity x a = .done { a with
        sum := sum, out := out, buf := buf, cursor := ofU32 ((u32 a.cursor + 1) % u32 a.win) } out 0 ∧
      s64 sum = mavSum a x ∧ s32 out = tdiv (s64 sum) (u32 a.win) ∧
      ∀ k, bufRead buf k = if k = u32 a.cursor then x else bufRead a.buf k := by
  have hc := ha.configured hv
  have hsum := slotSum_mavStep ha.bufWf hc x
  have hs64 : s64 (wrap64 (mavSum a x)) = mavSum a x := hsum ▸ s64_wrap64_slotSum _ a.win
  refine ⟨_, _, _, rfl, hs64, ?_, bufRead_bufWrite ha.bufWf (hc.cursorLt.trans_le hc.winMax) x⟩
  rw [hs64, ← hsum]
  exact s32_wrap32_mean _ hc.winPos

variable {sel lo hi : Word} {a : Mav}

/-- R173: the two result words of selector 3 are the halves of the sum. -/
theorem toNat_eq_halves (w : Word64) :
    w.toNat = (w.extractLsb' 32 32).toNat * 2 ^ 32 + (w.extractLsb' 0 32).toNat := by
  have hw := w.isLt
  rw [BitVec.extractLsb'_toNat, BitVec.extractLsb'_toNat, Nat.shiftRight_eq_div_pow, Nat.shiftRight_zero]
  omega

theorem mavRd_of_field (h : mavField capacity (u32 sel) a = some (lo, hi)) : mavRd capacity sel a = .done a lo hi := by
  rw [mavRd, h]

/-- R173: a selector above 4 that names no slot. -/
theorem mavRd_of_no_slot (h4 : 4 < u32 sel) (h : u32 sel < 0x100 ∨ 0x100 + capacity ≤ u32 sel) :
    mavRd capacity sel a = .raise .eArg := by
  rw [mavRd, mavField_of_four_lt a h4, if_neg (by omega)]

theorem mavRd_after : (mavRd capacity sel a).after a = a := by
  rw [mavRd]
  split <;> rfl

end Bodies

/-! ### Each MAV command -/

section EachCommand

variable {n : Nat} (h : n < P_NMAV) {s : State}
include h

/-- R171: all that MAV.INIT does with a window that it takes. -/
theorem exec_mavInit (hs : s.Inv) (hpos : 1 ≤ u32 s.arg0) (hmax : u32 s.arg0 ≤ 64) :
    ∃ (sum : Word64) (buf : SampleMemory), exec (.mavInit n) s = .next ((s.withMav n h
        { valid := true, win := s.arg0, cursor := 0, sum := sum, out := s.arg1, buf := buf }).completed 0 0) ∧
      s64 sum = u32 s.arg0 * s32 s.arg1 ∧
      ∀ k, bufRead buf k = if k < u32 s.arg0 then s.arg1 else bufRead s.mav[n].buf k :=
  ⟨_, _, congrArg Host.Outcome.next (mavCommand_done s anyCopy n _ h rfl (mavInit_done s.arg1 _ hpos hmax)),
    s64_wrap64_fill s.arg0 s.arg1, bufRead_bufFill (hs.mav n h).bufWf s.arg1 hmax⟩

/-- R172: all that MAV.STEP does on a configured copy. -/
theorem exec_mavStep (hs : s.Inv) (hv : s.mav[n].valid = true) :
    ∃ (sum : Word64) (out : Word) (buf : SampleMemory),
      exec (.mavStep n) s = .next ((s.withMav n h { s.mav[n] with
        sum := sum, out := out, buf := buf,
        cursor := ofU32 ((u32 s.mav[n].cursor + 1) % u32 s.mav[n].win) }).completed out 0) ∧
      s64 sum = mavSum s.mav[n] s.arg0 ∧ s32 out = tdiv (s64 sum) (u32 s.mav[n].win) ∧
      ∀ k, bufRead buf k = if k = u32 s.mav[n].cursor then s.arg0 else bufRead s.mav[n].buf k := by
  obtain ⟨sum, out, buf, hbody, hrest⟩ := mavStep_done (hs.mav n h) hv s.arg0
  exact ⟨sum, out, buf, congrArg Host.Outcome.next (mavCommand_done s Mav.valid n _ h hv hbody), hrest⟩

/-- R173: MAV.RD with a selector that names a field. -/
theorem exec_mavRd_of_field {lo hi : Word} (hfield : mavField 64 (u32 s.arg0) s.mav[n] = some (lo, hi)) :
    exec (.mavRd n) s = .next (s.completed lo hi) :=
  congrArg Host.Outcome.next (mavCommand_same s h rfl (mavRd_of_field hfield))

end EachCommand

/-- Settles O45: a window that MAV.INIT takes, and one that it does not. -/
theorem mavInitConstructs : Obligations.MavInitConstructs := by
  refine ⟨hasOpcode_of_fields (fun _ => rfl) fun _ => rfl, checksInst_of_count (fun _ => rfl) (fun _ => rfl) rfl,
    fun n h s hs => ⟨fun hpos hmax => ?_, fun hwin => congrArg Host.Outcome.next ?_⟩⟩
  · obtain ⟨sum, buf, hexec, hsum, hslots⟩ := exec_mavInit h hs hpos hmax
    exact ⟨sum, buf, hexec, hsum, fun k _ => hslots k⟩
  · exact mavCommand_faulted s h rfl (by decide) (mavInit_raise s.arg1 _ hwin)

/-- Settles O46: the integer quotient of R172 is the truncated rational one. -/
theorem mavStepAverages : Obligations.MavStepAverages := by
  refine ⟨hasOpcode_of_fields (fun _ => rfl) fun _ => rfl, checksInst_of_count (fun _ => rfl) (fun _ => rfl) rfl,
    checksConfigured_of_count (fun _ => rfl) (fun _ => rfl) rfl fun _ => rfl, fun n h s hs hv => ?_⟩
  obtain ⟨sum, out, buf, hexec, hsum, hout, hslots⟩ := exec_mavStep h hs hv
  exact ⟨sum, out, buf, hexec, hsum, hout.trans (truncRat_div _ _).symm, fun k _ => hslots k⟩

/-- Settles O47: each selector by the field or the slot that it names. -/
theorem mavRdReadsFields : Obligations.MavRdReadsFields := by
  refine ⟨hasOpcode_of_fields (fun _ => rfl) fun _ => rfl, checksInst_of_count (fun _ => rfl) (fun _ => rfl) rfl,
    fun n h s => ⟨fun hsel => ?_, fun hsel => ?_, fun hsel => ?_, fun hsel => ⟨_, _, ?_, toNat_eq_halves _⟩,
      fun hsel => ?_, fun k hk hsel => congrArg Host.Outcome.next ?_,
      fun h4 hsel => congrArg Host.Outcome.next ?_⟩⟩
  iterate 5 exact exec_mavRd_of_field h (by rw [hsel]; rfl)
  · exact mavCommand_same s h rfl (mavRd_slot _ hk hsel)
  · exact mavCommand_faulted s h rfl (by decide) (mavRd_of_no_slot h4 hsel)

/-! ### Which fields a MAV command writes -/

/-- R170: the fields and slots of copy `n` that the command `i` leaves as they are. -/
def MavFieldsKept (i : Instr) (n : Nat) (old new : Mav) : Prop :=
  new.valid = old.valid ∧ new.win = old.win ∧
  (i ≠ .mavStep n → new.cursor = old.cursor ∧ new.sum = old.sum ∧ new.out = old.out ∧
    ∀ k, bufRead new.buf k = bufRead old.buf k)

theorem mavFieldsKept_refl (i : Instr) (n : Nat) (a : Mav) : MavFieldsKept i n a a :=
  ⟨rfl, rfl, fun _ => ⟨rfl, rfl, rfl, fun _ => rfl⟩⟩

theorem mavStep_fieldsKept (n capacity : Nat) (x : Word) (a : Mav) :
    MavFieldsKept (.mavStep n) n a ((mavStep capacity x a).after a) :=
  ⟨rfl, rfl, (absurd rfl ·)⟩

/-- A command keeps the fields of its copy that its body keeps. -/
theorem mavCommand_fieldsKept (s : State P) {i : Instr} {ready : Mav → Bool} {n : Nat} {body : Mav → Verdict Mav}
    (h : n < P.nMav) (hbody : MavFieldsKept i n s.mav[n] ((body s.mav[n]).after s.mav[n])) :
    MavFieldsKept i n s.mav[n] (s.mavCommand ready n body).mav[n] := by
  rw [mavCommand_copy s h]
  obtain e | e := copyAfter_cases ready body s.mav[n] <;> rw [e]
  · exact mavFieldsKept_refl i n s.mav[n]
  · exact hbody

/-- A MAV command on its own copy keeps the fields that it does not write. -/
theorem exec_mav_fieldsKept {i : Instr} {s t : State} (h : i.inst < P_NMAV) (hunit : i.unit = .mav)
    (hexec : exec i s = .next t) (hinit : i ≠ .mavInit i.inst) :
    MavFieldsKept i i.inst s.mav[i.inst] t.mav[i.inst] := by
  cases i <;> cases hunit <;> cases hexec
  case mavInit => exact absurd rfl hinit
  case mavStep n => exact mavCommand_fieldsKept s h (mavStep_fieldsKept n _ _ _)
  case mavRd n => exact mavCommand_fieldsKept s h (by rw [mavRd_after]; exact mavFieldsKept_refl _ n _)

/-- Settles O22: a command writes no other copy, and on its own each MAV command keeps the fields above. -/
theorem mavFieldWriters : Obligations.MavFieldWriters := by
  intro i s t n h hexec hreset hinit
  change MavFieldsKept i n s.mav[n] t.mav[n]
  by_cases hown : i.unit = .mav ∧ n = i.inst
  · obtain ⟨hunit, rfl⟩ := hown
    exact exec_mav_fieldsKept h hunit hexec hinit
  · obtain ⟨-, -, hmav, -⟩ := commandWritesOnlyItsCopy i s t hreset hexec
    rw [hmav n h (not_and_or.mp hown)]
    exact mavFieldsKept_refl i n s.mav[n]

/-! ### The mean of the last window -/

/-- R174: a configured copy whose window holds these samples, oldest first: the oldest stands at the cursor, and the
rest follow it round the window. -/
structure Mav.Holds (a : Mav) (samples : List Word) : Prop where
  valid : a.valid = true
  length : samples.length = u32 a.win
  slots : ∀ j (h : j < samples.length), bufRead a.buf ((u32 a.cursor + j) % u32 a.win) = samples[j]
  sum : s64 a.sum = (samples.map s32).sum

/-- R171: after MAV.INIT the window holds the fill value in every slot. -/
theorem holds_replicate {win fill : Word} {sum : Word64} {buf : SampleMemory} (hsum : s64 sum = u32 win * s32 fill)
    (hslots : ∀ k, k < u32 win → bufRead buf k = fill) :
    Mav.Holds { valid := true, win := win, cursor := 0, sum := sum, out := fill, buf := buf }
      (List.replicate (u32 win) fill) where
  valid := rfl
  length := List.length_replicate
  slots j hj := by
    have hpos : 0 < u32 win := Nat.zero_lt_of_lt (List.length_replicate (a := fill) ▸ hj)
    rw [List.getElem_replicate]
    exact hslots _ (Nat.mod_lt _ hpos)
  sum := by simp [hsum]

/-- R172: a cursor is kept as it is, being below a window of 32 bits. -/
theorem u32_ofU32_mod {win : Word} (hpos : 0 < u32 win) (c : Nat) : u32 (ofU32 (c % u32 win)) = c % u32 win :=
  u32_ofU32 ((Nat.mod_lt c hpos).trans (u32_lt win))

/-- Within one turn of the window only distance 0 leads back to the cursor. -/
theorem add_mod_eq_self_iff {c j N : Nat} (hc : c < N) (hj : j < N) : (c + j) % N = c ↔ j = 0 := by
  by_cases hwrap : c + j < N
  · rw [Nat.mod_eq_of_lt hwrap]
    omega
  · rw [Nat.mod_eq_sub_mod (by omega), Nat.mod_eq_of_lt (by omega)]
    omega

/-- R172: MAV.STEP drops the oldest sample and appends the new one. -/
theorem Mav.Holds.step {a : Mav} {w x : Word} {samples : List Word} (ha : a.Holds (w :: samples))
    (hcursor : u32 a.cursor < u32 a.win) {sum : Word64} {out : Word} {buf : SampleMemory}
    (hsum : s64 sum = mavSum a x) (hslots : ∀ k, bufRead buf k = if k = u32 a.cursor then x else bufRead a.buf k) :
    Mav.Holds { a with sum := sum, out := out, buf := buf, cursor := ofU32 ((u32 a.cursor + 1) % u32 a.win) }
      (samples ++ [x]) := by
  have hlen : samples.length + 1 = u32 a.win := ha.length
  refine ⟨ha.valid, by simpa using hlen, fun j hj => ?_, ?_⟩
  · rw [List.length_append, List.length_singleton] at hj
    simp only [u32_ofU32_mod (Nat.zero_lt_of_lt hcursor), Nat.mod_add_mod, hslots]
    rw [Nat.add_right_comm, Nat.add_assoc]
    rcases Nat.lt_succ_iff_lt_or_eq.mp hj with hold | rfl
    · rw [if_neg (mt (add_mod_eq_self_iff hcursor (by omega)).mp (by omega)),
        ha.slots (j + 1) (Nat.succ_lt_succ hold), List.getElem_append_left hold, List.getElem_cons_succ]
    · rw [hlen, Nat.add_mod_right, Nat.mod_eq_of_lt hcursor, if_pos rfl, List.getElem_concat_length rfl]
  · have hoff : bufRead a.buf (u32 a.cursor) = w := by
      have h0 := ha.slots 0 (Nat.succ_pos _)
      rwa [Nat.add_zero, Nat.mod_eq_of_lt hcursor] at h0
    have hold : s64 a.sum = s32 w + (samples.map s32).sum := ha.sum
    simp only [hsum, mavSum, hoff, hold, List.map_append, List.sum_append, List.map_singleton, List.sum_singleton]
    ring

/-- R31: the output is the mean of the samples held. -/
theorem Mav.Holds.out_eq_mean {capacity : Nat} {a : Mav} {samples : List Word} (ha : a.Holds samples)
    (hinv : a.Inv capacity) : s32 a.out = (samples.map s32).sum.tdiv samples.length := by
  rw [(hinv.configured ha.valid).outExact, ha.sum, ha.length]
  rfl

theorem exec_inv {i : Instr} {s t : State} (hs : s.Inv) (h : exec i s = .next t) : t.Inv :=
  execFor_inv hs (exec_eq_execFor ▸ h)

section Run

variable {n : Nat} (h : n < P_NMAV)

/-- R172: one sample, written to ARG0 and stepped. -/
theorem exec_mavStep_holds {s : State} (hs : s.Inv) {w : Word} {samples : List Word}
    (hholds : s.mav[n].Holds (w :: samples)) (x : Word) : ∃ t, exec (.mavStep n) { s with arg0 := x } = .next t ∧
      t.Inv ∧ t.mav[n].Holds (samples ++ [x]) ∧
      u32 t.mav[n].cursor = (u32 s.mav[n].cursor + 1) % (samples.length + 1) := by
  have hx : State.Inv { s with arg0 := x } := ⟨hs.tmr, hs.iir, hs.mav, hs.rmp⟩
  have hcursor := ((hs.mav n h).configured hholds.valid).cursorLt
  have hlen : samples.length + 1 = u32 s.mav[n].win := hholds.length
  obtain ⟨sum, out, buf, hexec, hsum, -, hslots⟩ := exec_mavStep h hx hholds.valid
  refine ⟨_, hexec, exec_inv hx hexec, ?_, ?_⟩
  · rw [completed_withMav_copy]
    exact hholds.step hcursor hsum hslots
  · rw [completed_withMav_copy, hlen]
    exact u32_ofU32_mod (Nat.zero_lt_of_lt hcursor) _

/-- R174: after a list of inputs the window holds the last of what it held and the inputs, and the cursor has gone round
once for each input. -/
theorem withArgs0_mavStep (inputs : List Word) {s : State} (hs : s.Inv) {samples : List Word}
    (hholds : s.mav[n].Holds samples) : ∃ t outs, withArgs0 (.mavStep n) inputs s = some (t, outs) ∧
      t.Inv ∧ t.mav[n].Holds ((samples ++ inputs).drop inputs.length) ∧
      u32 t.mav[n].cursor = (u32 s.mav[n].cursor + inputs.length) % samples.length := by
  have hcursor := ((hs.mav n h).configured hholds.valid).cursorLt
  have hlen := hholds.length
  induction inputs generalizing s samples with
  | nil =>
    refine ⟨s, [], rfl, hs, by simpa using hholds, ?_⟩
    rw [List.length_nil, Nat.add_zero, hlen, Nat.mod_eq_of_lt hcursor]
  | cons x xs ih =>
    cases samples with
    | nil => exact absurd hlen (by simp only [List.length_nil]; omega)
    | cons w samples =>
      obtain ⟨t, hexec, ht, hnext, hone⟩ := exec_mavStep_holds h hs hholds x
      obtain ⟨u, outs, hrest, hu, hlast, hmore⟩ :=
        ih ht hnext ((ht.mav n h).configured hnext.valid).cursorLt hnext.length
      refine ⟨u, _, withArgs0_cons hexec hrest, hu, by simpa using hlast, ?_⟩
      rw [hmore, hone, List.length_append, List.length_singleton, Nat.mod_add_mod, Nat.add_assoc, Nat.add_comm 1]
      rfl

end Run

/-- Settles O48: MAV.INIT fills the window, each MAV.STEP moves it on by one sample, and the output is its mean. -/
theorem mavMeanOfLastWindow : Obligations.MavMeanOfLastWindow := by
  rintro n h s N inputs hs rfl hpos hmax
  obtain ⟨sum, buf, hinit, hsum, hslots⟩ := exec_mavInit h hs hpos hmax
  have hfill := holds_replicate hsum fun k hk => (hslots k).trans (if_pos hk)
  obtain ⟨u, outs, hrun, hu, hholds, hcursor⟩ :=
    withArgs0_mavStep h inputs (exec_inv hs hinit) (samples := List.replicate (u32 s.arg0) s.arg1)
      (by rwa [completed_withMav_copy])
  refine ⟨_, u, outs, hinit, hrun, ?_, ?_⟩
  · have hlen : ((List.replicate (u32 s.arg0) s.arg1 ++ inputs).drop inputs.length).length = u32 s.arg0 := by simp
    have hmean := hholds.out_eq_mean (hu.mav n h)
    rw [hlen] at hmean
    exact hmean
  · rwa [completed_withMav_copy, u32_zero, Nat.zero_add, List.length_replicate] at hcursor

end Sys2Proof.Machine

/-! PROOFS of the statements on the ramps (spec 44_ramp.md). What RMP.UPD does to its copy is `Rmp.updated`; from the
invariant no part of it wraps (`s32_updated_present`). That a ramp converges rests on `gap_updated`, the distance to the
target shrinks by the step and stops at 0, and on `rampStep_updated`, the step stays until the target is reached. -/

namespace Sys2Proof.Machine

open Sys2Proof.Config

variable {P : Params}

/-! ### What an RMP command does to its copy -/

section RmpCopy

variable (s : State P) {ready : Rmp → Bool} {n : Nat} {body : Rmp → Verdict Rmp}

theorem rmpCommand_copy (h : n < P.nRmp) : (s.rmpCommand ready n body).rmp[n] = copyAfter ready body s.rmp[n] := by
  obtain ⟨-, -, -, hrmp⟩ := copies_of_sansOutcome (rmpCommand_sansOutcome s ready n body)
  simp [hrmp]

/-- A command that answers its copy as it was changes RES and STATUS only. -/
theorem rmpCommand_same (h : n < P.nRmp) (hr : ready s.rmp[n] = true) {r0 r1 : Word}
    (hb : body s.rmp[n] = .done s.rmp[n] r0 r1) : s.rmpCommand ready n body = s.completed r0 r1 := by
  rw [rmpCommand_done s ready n body h hr hb, Vector.set_getElem_self]
  rfl

/-- A command whose own check fails leaves the block but for its code. -/
theorem rmpCommand_faulted (h : n < P.nRmp) (hr : ready s.rmp[n] = true) {c : Code} (hc : c ≠ .ok)
    (hb : body s.rmp[n] = .raise c) : s.rmpCommand ready n body = s.faulted c := by
  rw [rmpCommand_raise s ready n body h hr hb, raise_eq_faulted s hc]

@[simp] theorem completed_withRmp_copy (h : n < P.nRmp) (new : Rmp) (r0 r1 : Word) :
    ((s.withRmp n h new).completed r0 r1).rmp[n] = new := by
  simp [State.completed, State.withRmp]

end RmpCopy

section Construction

variable {period incRate decRate i d : Word} {tick : Nat} (r : Rmp)

/-- R191: the two conversions are checked first. -/
theorem rmpInit_of_no_rate (h : f2x incRate = none ∨ f2x decRate = none) :
    rmpInit period incRate decRate r = .raise .eFrange := by
  rw [rmpInit]
  cases hi : f2x incRate with
  | none => rfl
  | some i => simp only [h.resolve_left (by simp [hi])]

/-- R191: on rates that convert, the checks of signs, tick and step raise one code. -/
theorem rmpInit_of_rates (hi : f2x incRate = some i) (hd : f2x decRate = some d) (ht : tick = tickRaw (u32 period)) :
    rmpInit period incRate decRate r =
      if s32 i < 0 ∨ s32 d < 0 ∨ 2 ^ 31 - 1 < tick ∨ 2 ^ 31 - 1 < asr (max (s32 i) (s32 d) * tick) 16 then .raise .eArg
      else .done { valid := true, present := 0, target := 0, inc := i, dec := d, tick := ofU32 tick } 0 0 := by
  simp only [rmpInit, hi, hd, ht, ite_or, gt_iff_lt]

end Construction

section RateInUse

variable {r : Rmp}

/-- R192: a converged ramp has no rate in use. -/
theorem rdelta_of_eq (h : s32 r.present = s32 r.target) : rdelta r = 0 := if_pos h

/-- R192: toward 0 the ramp decreases, from either side. -/
theorem rdelta_of_target_zero (h : s32 r.present ≠ s32 r.target) (h0 : s32 r.target = 0) : rdelta r = r.dec := by
  rw [rdelta, if_neg h, if_pos h0]

/-- R192: moving outward toward the target, the ramp increases. -/
theorem rdelta_of_outward (h : 0 < s32 r.target ∧ s32 r.present < s32 r.target ∨
    s32 r.target < 0 ∧ s32 r.target < s32 r.present) : rdelta r = r.inc := by
  rw [rdelta, if_neg (by omega), if_neg (by omega)]
  obtain ⟨hsign, hside⟩ | ⟨hsign, hside⟩ := h
  · rw [if_pos hsign, if_pos hside]
  · rw [if_neg hsign.not_gt, if_pos hside]

/-- R192: beyond the target, the ramp decreases. -/
theorem rdelta_of_inward (h : 0 < s32 r.target ∧ s32 r.target < s32 r.present ∨
    s32 r.target < 0 ∧ s32 r.present < s32 r.target) : rdelta r = r.dec := by
  rw [rdelta, if_neg (by omega), if_neg (by omega)]
  obtain ⟨hsign, hside⟩ | ⟨hsign, hside⟩ := h
  · rw [if_pos hsign, if_neg hside.not_gt]
  · rw [if_neg hsign.not_gt, if_neg hside.not_gt]

/-- R192: the rate in use is 0 or one of the two rates. -/
theorem rdelta_cases (r : Rmp) : rdelta r = 0 ∨ rdelta r = r.inc ∨ rdelta r = r.dec := by
  unfold rdelta
  split_ifs <;> simp

/-- R192, R198 item 3: of the present value only the side of the target it lies on matters. -/
theorem rdelta_of_same_side {present : Word} (hlt : s32 present < s32 r.target ↔ s32 r.present < s32 r.target)
    (hgt : s32 present > s32 r.target ↔ s32 r.present > s32 r.target) :
    rdelta { r with present := present } = rdelta r := by
  have heq : s32 present = s32 r.target ↔ s32 r.present = s32 r.target := by omega
  simp only [rdelta, heq, hlt, hgt]

end RateInUse

section Reading

variable {sel v : Word} (r : Rmp)

/-- R197: a selector above 5 names no field. -/
theorem rmpField_of_five_lt {sel : Nat} (h : 5 < sel) : rmpField sel r = none := by
  unfold rmpField
  split
  iterate 6 omega
  rfl

theorem rmpRd_of_field (h : rmpField (u32 sel) r = some v) : rmpRd sel r = .done r v 0 := by
  rw [rmpRd, h]

theorem rmpRd_of_no_field (h : rmpField (u32 sel) r = none) : rmpRd sel r = .raise .eArg := by
  rw [rmpRd, h]

theorem rmpRd_after : (rmpRd sel r).after r = r := by
  rw [rmpRd]
  split <;> rfl

end Reading

/-! ### The update of a ramp -/

/-- R195: a ramp after one RMP.UPD. -/
def Rmp.updated (r : Rmp) : Rmp := { r with present := wrap32 (rampNext r) }

theorem rmpUpd_eq (r : Rmp) : rmpUpd r = .done r.updated r.updated.present 0 := rfl

@[simp] theorem Rmp.updated_valid (r : Rmp) : r.updated.valid = r.valid := rfl
@[simp] theorem Rmp.updated_target (r : Rmp) : r.updated.target = r.target := rfl
@[simp] theorem Rmp.updated_tick (r : Rmp) : r.updated.tick = r.tick := rfl

section Update

variable {r : Rmp}

theorem rampNext_of_lt (h : s32 r.present < s32 r.target) :
    rampNext r = min (s32 r.present + rampStep r) (s32 r.target) := if_pos h

theorem rampNext_of_gt (h : s32 r.target < s32 r.present) :
    rampNext r = max (s32 r.present - rampStep r) (s32 r.target) := by
  rw [rampNext, if_neg h.not_gt, if_pos h]

theorem rampNext_of_eq (h : s32 r.present = s32 r.target) : rampNext r = s32 r.present := by
  rw [rampNext, if_neg h.not_lt, if_neg h.not_gt]

/-- R198 item 3: with step 0 an update changes nothing. -/
theorem updated_of_step_zero (h : rampStep r = 0) : r.updated = r := by
  have hnext : rampNext r = s32 r.present := by
    obtain hlt | heq | hgt := lt_trichotomy (s32 r.present) (s32 r.target)
    · rw [rampNext_of_lt hlt]; omega
    · exact rampNext_of_eq heq
    · rw [rampNext_of_gt hgt]; omega
  rw [Rmp.updated, hnext, wrap32_s32]

variable (hr : r.Configured)
include hr

/-- R33 speaks of the rates and the tick alone. -/
theorem updated_configured : r.updated.Configured := ⟨hr.incNonneg, hr.decNonneg, hr.tickNonneg, hr.stepFits⟩

theorem rdelta_nonneg_le : 0 ≤ s32 (rdelta r) ∧ s32 (rdelta r) ≤ max (s32 r.inc) (s32 r.dec) := by
  have hinc := hr.incNonneg
  have hdec := hr.decNonneg
  obtain e | e | e := rdelta_cases r <;> rw [e]
  · rw [s32_zero]; omega
  · omega
  · omega

/-- R33: the floored product that is the step fits a fix. -/
theorem step_nonneg_le : 0 ≤ asr (s32 (rdelta r) * s32 r.tick) 16 ∧
    asr (s32 (rdelta r) * s32 r.tick) 16 ≤ 2 ^ 31 - 1 := by
  obtain ⟨hnonneg, hle⟩ := rdelta_nonneg_le hr
  have hprod := mul_nonneg hnonneg hr.tickNonneg
  have hmax := mul_le_mul_of_nonneg_right hle hr.tickNonneg
  have hfits := hr.stepFits
  rw [asr] at hfits ⊢
  omega

/-- R195: so the step does not wrap. -/
theorem rampStep_eq_asr : rampStep r = asr (s32 (rdelta r) * s32 r.tick) 16 := by
  obtain ⟨hnonneg, hle⟩ := step_nonneg_le hr
  rw [rampStep, fxmul]
  exact s32_wrap32 (by omega) hle

theorem rampStep_eq_fdiv : rampStep r = ((rdelta r).toInt * r.tick.toInt).fdiv (2 ^ 16) :=
  (rampStep_eq_asr hr).trans (asr_eq_fdiv _ _)

theorem rampStep_nonneg : 0 ≤ rampStep r := (rampStep_eq_asr hr).symm ▸ (step_nonneg_le hr).1

/-- R198 item 1: no overshoot. -/
theorem rampNext_between : min (s32 r.present) (s32 r.target) ≤ rampNext r ∧
    rampNext r ≤ max (s32 r.present) (s32 r.target) := by
  have hstep := rampStep_nonneg hr
  obtain hlt | heq | hgt := lt_trichotomy (s32 r.present) (s32 r.target)
  · rw [rampNext_of_lt hlt]; omega
  · rw [rampNext_of_eq heq]; omega
  · rw [rampNext_of_gt hgt]; omega

/-- R195: nor does the update, since its result lies between two fix values. -/
theorem s32_updated_present : s32 r.updated.present = rampNext r := by
  have hp := s32_lower r.present
  have hp' := s32_upper r.present
  have ht := s32_lower r.target
  have ht' := s32_upper r.target
  have hq := rampNext_between hr
  exact s32_wrap32 (by omega) (by omega)

end Update

/-! ### Each RMP command -/

section EachCommand

variable {n : Nat} (h : n < P_NRMP) {s : State}
include h

/-- R194: RMP.DELTA on a configured copy. -/
theorem exec_rmpDelta (hv : s.rmp[n].valid = true) :
    exec (.rmpDelta n) s = .next (s.completed (rdelta s.rmp[n]) 0) :=
  congrArg Host.Outcome.next (rmpCommand_same s h hv rfl)

/-- R195: RMP.UPD on a configured copy. -/
theorem exec_rmpUpd (hv : s.rmp[n].valid = true) : exec (.rmpUpd n) s =
    .next ((s.withRmp n h s.rmp[n].updated).completed s.rmp[n].updated.present 0) :=
  congrArg Host.Outcome.next (rmpCommand_done s Rmp.valid n _ h hv (rmpUpd_eq _))

/-- R197: RMP.RD with a selector that names a field. -/
theorem exec_rmpRd_of_field {v : Word} (hfield : rmpField (u32 s.arg0) s.rmp[n] = some v) :
    exec (.rmpRd n) s = .next (s.completed v 0) :=
  congrArg Host.Outcome.next (rmpCommand_same s h rfl (rmpRd_of_field _ hfield))

end EachCommand

/-- Settles O49: the checks in order, and the ramp that passes them. -/
theorem rmpInitConstructs : Obligations.RmpInitConstructs := by
  refine ⟨hasOpcode_of_fields (fun _ => rfl) fun _ => rfl, checksInst_of_count (fun _ => rfl) (fun _ => rfl) rfl,
    fun n h s => ⟨fun hnone => congrArg Host.Outcome.next ?_, fun i d hi hd tick htick => ?_⟩⟩
  · exact rmpCommand_faulted s h rfl (by decide) (rmpInit_of_no_rate _ hnone)
  · have hbody := rmpInit_of_rates s.rmp[n] hi hd htick
    rw [← asr_eq_fdiv]
    refine ⟨fun hbad => congrArg Host.Outcome.next ?_, fun hinc hdec hfits hstep => congrArg Host.Outcome.next ?_⟩
    · exact rmpCommand_faulted s h rfl (by decide) (hbody.trans (if_pos hbad))
    · refine rmpCommand_done s anyCopy n _ h rfl (hbody.trans (if_neg ?_))
      exact not_or_intro hinc.not_gt (not_or_intro hdec.not_gt (not_or_intro hfits.not_gt hstep.not_gt))

/-- Settles O50: RMP.DELTA answers `rdelta`, whose cases are those listed. -/
theorem rmpDeltaRate : Obligations.RmpDeltaRate := by
  refine ⟨hasOpcode_of_fields (fun _ => rfl) fun _ => rfl, checksInst_of_count (fun _ => rfl) (fun _ => rfl) rfl,
    checksConfigured_of_count (fun _ => rfl) (fun _ => rfl) rfl fun _ => rfl, ?_⟩
  rintro n h s _ _ hv rfl rfl
  rw [exec_rmpDelta h hv]
  refine ⟨fun heq => ?_, fun hne h0 => ?_, fun hpos hlt => ?_, fun hpos hgt => ?_, fun hneg hgt => ?_,
    fun hneg hlt => ?_⟩
  · rw [rdelta_of_eq heq]
  · rw [rdelta_of_target_zero hne h0]
  · rw [rdelta_of_outward (.inl ⟨hpos, hlt⟩)]
  · rw [rdelta_of_inward (.inl ⟨hpos, hgt⟩)]
  · rw [rdelta_of_outward (.inr ⟨hneg, hgt⟩)]
  · rw [rdelta_of_inward (.inr ⟨hneg, hlt⟩)]

/-- Settles O51: both bodies complete on every copy. -/
theorem rmpSettAndConv : Obligations.RmpSettAndConv :=
  ⟨hasOpcode_of_fields (fun _ => rfl) fun _ => rfl, checksInst_of_count (fun _ => rfl) (fun _ => rfl) rfl,
    checksConfigured_of_count (fun _ => rfl) (fun _ => rfl) rfl fun _ => rfl,
    hasOpcode_of_fields (fun _ => rfl) fun _ => rfl, checksInst_of_count (fun _ => rfl) (fun _ => rfl) rfl,
    checksConfigured_of_count (fun _ => rfl) (fun _ => rfl) rfl fun _ => rfl,
    fun n h s hv => ⟨congrArg Host.Outcome.next (rmpCommand_done s Rmp.valid n (rmpSett s.arg0) h hv rfl),
      congrArg Host.Outcome.next (rmpCommand_same s h hv (by simp [rmpConv, bitWord]))⟩⟩

/-- Settles O52: the step and the update do not wrap. -/
theorem rmpUpdSteps : Obligations.RmpUpdSteps := by
  refine ⟨hasOpcode_of_fields (fun _ => rfl) fun _ => rfl, checksInst_of_count (fun _ => rfl) (fun _ => rfl) rfl,
    checksConfigured_of_count (fun _ => rfl) (fun _ => rfl) rfl fun _ => rfl, ?_⟩
  rintro n h s _ _ step hs hv rfl rfl hstep
  have hr := (hs.rmp n h).configured hv
  have hq := s32_updated_present hr
  obtain ⟨hlo, hhi⟩ := rampNext_between hr
  obtain ⟨hnonneg, hle⟩ := step_nonneg_le hr
  rw [← rampStep_eq_asr hr] at hnonneg hle
  rw [← rampStep_eq_fdiv hr] at hstep
  subst hstep
  exact ⟨hnonneg, hle, _, exec_rmpUpd h hv, fun hlt => hq.trans (rampNext_of_lt hlt),
    fun hgt => hq.trans (rampNext_of_gt hgt), fun heq => hq.trans (rampNext_of_eq heq),
    hlo.trans_eq hq.symm, hq.trans_le hhi⟩

/-- Settles O53: each selector by the field it names. -/
theorem rmpRdReadsFields : Obligations.RmpRdReadsFields := by
  refine ⟨hasOpcode_of_fields (fun _ => rfl) fun _ => rfl, checksInst_of_count (fun _ => rfl) (fun _ => rfl) rfl,
    fun n h s => ⟨?_, ?_, ?_, ?_, ?_, ?_, fun hsel => congrArg Host.Outcome.next ?_⟩⟩
  iterate 6
    intro hsel
    exact exec_rmpRd_of_field h (by rw [hsel]; rfl)
  exact rmpCommand_faulted s h rfl (by decide) (rmpRd_of_no_field _ (rmpField_of_five_lt _ hsel))

/-! ### Which fields an RMP command writes -/

/-- R190: the fields of copy `n` that the command `i` leaves as they are. -/
def RmpFieldsKept (i : Instr) (n : Nat) (old new : Rmp) : Prop :=
  new.valid = old.valid ∧ new.inc = old.inc ∧ new.dec = old.dec ∧ new.tick = old.tick ∧
  (i ≠ .rmpSett n → new.target = old.target) ∧
  (i ≠ .rmpUpd n → new.present = old.present)

theorem rmpFieldsKept_refl (i : Instr) (n : Nat) (r : Rmp) : RmpFieldsKept i n r r :=
  ⟨rfl, rfl, rfl, rfl, fun _ => rfl, fun _ => rfl⟩

theorem rmpSett_fieldsKept (n : Nat) (x : Word) (r : Rmp) : RmpFieldsKept (.rmpSett n) n r ((rmpSett x r).after r) :=
  ⟨rfl, rfl, rfl, rfl, (absurd rfl ·), fun _ => rfl⟩

theorem rmpUpd_fieldsKept (n : Nat) (r : Rmp) : RmpFieldsKept (.rmpUpd n) n r ((rmpUpd r).after r) :=
  ⟨rfl, rfl, rfl, rfl, fun _ => rfl, (absurd rfl ·)⟩

/-- A command keeps the fields of its copy that its body keeps. -/
theorem rmpCommand_fieldsKept (s : State P) {i : Instr} {ready : Rmp → Bool} {n : Nat} {body : Rmp → Verdict Rmp}
    (h : n < P.nRmp) (hbody : RmpFieldsKept i n s.rmp[n] ((body s.rmp[n]).after s.rmp[n])) :
    RmpFieldsKept i n s.rmp[n] (s.rmpCommand ready n body).rmp[n] := by
  rw [rmpCommand_copy s h]
  obtain e | e := copyAfter_cases ready body s.rmp[n] <;> rw [e]
  · exact rmpFieldsKept_refl i n s.rmp[n]
  · exact hbody

/-- An RMP command on its own copy keeps the fields that it does not write. -/
theorem exec_rmp_fieldsKept {i : Instr} {s t : State} (h : i.inst < P_NRMP) (hunit : i.unit = .rmp)
    (hexec : exec i s = .next t) (hinit : i ≠ .rmpInit i.inst) :
    RmpFieldsKept i i.inst s.rmp[i.inst] t.rmp[i.inst] := by
  cases i <;> cases hunit <;> cases hexec
  case rmpInit => exact absurd rfl hinit
  case rmpSett n => exact rmpCommand_fieldsKept s h (rmpSett_fieldsKept n _ _)
  case rmpDelta n => exact rmpCommand_fieldsKept s h (rmpFieldsKept_refl _ n _)
  case rmpUpd n => exact rmpCommand_fieldsKept s h (rmpUpd_fieldsKept n _)
  case rmpConv n => exact rmpCommand_fieldsKept s h (rmpFieldsKept_refl _ n _)
  case rmpRd n => exact rmpCommand_fieldsKept s h (by rw [rmpRd_after]; exact rmpFieldsKept_refl _ n _)

/-- Settles O23: a command writes no other copy, and on its own each RMP command keeps the fields above. -/
theorem rmpFieldWriters : Obligations.RmpFieldWriters := by
  intro i s t n h hexec hreset hinit
  change RmpFieldsKept i n s.rmp[n] t.rmp[n]
  by_cases hown : i.unit = .rmp ∧ n = i.inst
  · obtain ⟨hunit, rfl⟩ := hown
    exact exec_rmp_fieldsKept h hunit hexec hinit
  · obtain ⟨-, -, -, hrmp⟩ := commandWritesOnlyItsCopy i s t hreset hexec
    rw [hrmp n h (not_and_or.mp hown)]
    exact rmpFieldsKept_refl i n s.rmp[n]

/-! ### Convergence -/

/-- R198 item 3: how far the present value is from the target. -/
def Rmp.gap (r : Rmp) : Int := |s32 r.target - s32 r.present|

section Gap

variable {r : Rmp}

theorem gap_eq_max : r.gap = max (s32 r.target - s32 r.present) (s32 r.present - s32 r.target) := by
  rw [Rmp.gap, abs_eq_max_neg, neg_sub]

theorem gap_eq_zero_iff : r.gap = 0 ↔ r.present = r.target := by
  rw [Rmp.gap, abs_eq_zero, sub_eq_zero, s32_inj, eq_comm]

variable (hr : r.Configured)
include hr

/-- R195: an update brings the ramp nearer to its target by the step, but not past it. -/
theorem gap_updated : r.updated.gap = max (r.gap - rampStep r) 0 := by
  have hstep := rampStep_nonneg hr
  rw [gap_eq_max, gap_eq_max, s32_updated_present hr, Rmp.updated_target]
  obtain hlt | heq | hgt := lt_trichotomy (s32 r.present) (s32 r.target)
  · rw [rampNext_of_lt hlt]; omega
  · rw [rampNext_of_eq heq]; omega
  · rw [rampNext_of_gt hgt]; omega

/-- R198 item 3: while the target is not reached, the step stays, since the present value stays on its side. -/
theorem rampStep_updated (hne : r.updated.gap ≠ 0) : rampStep r.updated = rampStep r := by
  have hq := s32_updated_present hr
  have hbetween := rampNext_between hr
  have hmiss : s32 r.updated.present ≠ s32 r.target := fun e => hne (gap_eq_zero_iff.mpr (s32_inj.mp e))
  have hside : rdelta r.updated = rdelta r := by
    refine rdelta_of_same_side (present := r.updated.present) ?_ ?_ <;> rw [hq] at hmiss ⊢ <;> omega
  rw [rampStep, hside, Rmp.updated_tick, rampStep]

/-- R198 item 3: after `k` updates the ramp is nearer by `k` steps, or at its target. -/
theorem gap_iterate_updated (k : Nat) : (Rmp.updated^[k] r).gap = max (r.gap - k * rampStep r) 0 := by
  induction k generalizing r with
  | zero =>
    have hgap : 0 ≤ r.gap := abs_nonneg _
    simp [hgap]
  | succ k ih =>
    have hstep : 0 ≤ k * rampStep r := mul_nonneg (by positivity) (rampStep_nonneg hr)
    have hone := gap_updated hr
    rw [Function.iterate_succ_apply, ih (updated_configured hr), Nat.cast_succ, add_one_mul]
    by_cases hreached : r.updated.gap = 0
    · have hstep' : 0 ≤ k * rampStep r.updated := mul_nonneg (by positivity) (rampStep_nonneg (updated_configured hr))
      omega
    · rw [rampStep_updated hr hreached]
      omega

end Gap

theorem iterate_updated_target (k : Nat) (r : Rmp) : (Rmp.updated^[k] r).target = r.target := by
  induction k generalizing r with
  | zero => rfl
  | succ k ih => rw [Function.iterate_succ_apply, ih, Rmp.updated_target]

/-- R198 item 3: `k` updates reach the target when `k` steps cover the distance. -/
theorem iterate_updated_reached_iff {r : Rmp} (hr : r.Configured) (k : Nat) :
    (Rmp.updated^[k] r).present = r.target ↔ r.gap ≤ k * rampStep r := by
  rw [← iterate_updated_target k r, ← gap_eq_zero_iff, gap_iterate_updated hr]
  omega

/-- The least number of steps above 0 that cover a distance. -/
theorem toNat_ceil_div_le_iff {gap step : Int} (hstep : 0 < step) (k : Nat) :
    ⌈(gap : ℚ) / step⌉.toNat ≤ k ↔ gap ≤ k * step := by
  have hpos : (0 : ℚ) < step := by exact_mod_cast hstep
  rw [Int.toNat_le, Int.ceil_le, div_le_iff₀ hpos]
  exact_mod_cast Iff.rfl

/-- R195: repeated RMP.UPD on a configured copy. -/
theorem repeated_rmpUpd {n : Nat} (h : n < P_NRMP) (k : Nat) {s : State} (hv : s.rmp[n].valid = true) :
    ∃ u, repeated (.rmpUpd n) k s = some u ∧ u.rmp[n] = Rmp.updated^[k] s.rmp[n] := by
  induction k generalizing s with
  | zero => exact ⟨s, rfl, rfl⟩
  | succ k ih =>
    rw [repeated_succ (exec_rmpUpd h hv)]
    obtain ⟨u, hrest, hcopy⟩ := ih (s := (s.withRmp n h s.rmp[n].updated).completed s.rmp[n].updated.present 0)
      (by rwa [completed_withRmp_copy, Rmp.updated_valid])
    exact ⟨u, hrest, by rw [hcopy, completed_withRmp_copy, Function.iterate_succ_apply]⟩

/-- Settles O54: repeated updates reach the target when their steps cover the distance; with step 0 they change
nothing. -/
theorem rampConvergesInCeil : Obligations.RampConvergesInCeil := by
  rintro n h s _ _ S hs hv rfl rfl hS
  have hr := (hs.rmp n h).configured hv
  rw [← rampStep_eq_fdiv hr] at hS
  subst hS
  have hgap : (|(s.rmp[n].target.toInt : ℚ) - s.rmp[n].present.toInt|) = (s.rmp[n].gap : ℚ) := by
    simp [Rmp.gap, s32]
  rw [hgap]
  refine ⟨fun hpos => ⟨?_, fun k hk => ?_⟩, fun hzero k => ?_⟩
  · obtain ⟨u, hrun, hcopy⟩ := repeated_rmpUpd h ⌈(s.rmp[n].gap : ℚ) / rampStep s.rmp[n]⌉.toNat hv
    refine ⟨u, hrun, ?_⟩
    rw [hcopy, iterate_updated_reached_iff hr, ← toNat_ceil_div_le_iff hpos]
  · obtain ⟨u, hrun, hcopy⟩ := repeated_rmpUpd h k hv
    refine ⟨u, hrun, ?_⟩
    rw [hcopy, ne_eq, iterate_updated_reached_iff hr, ← toNat_ceil_div_le_iff hpos]
    exact hk.not_ge
  · obtain ⟨u, hrun, hcopy⟩ := repeated_rmpUpd h k hv
    exact ⟨u, hrun, by rw [hcopy, Function.iterate_fixed (updated_of_step_zero hzero)]⟩

end Sys2Proof.Machine

/-! PROOFS of the statements on the SYS commands (spec 45_sys.md). A SYS word with any bit set above its OPC is one of
R87's illegal words (`performCommand_sys_illegal`); after a reset no copy of any unit is configured
(`resetBlock_copyValid`), so the checks of R83 do the rest. -/

namespace Sys2Proof.Machine

open Sys2Proof.Config

/-! ### The words of the SYS opcodes -/

/-- R82, R87: `n` holds RSV and INST; where they are not both 0, a SYS opcode is no command. -/
theorem illegalWord_of_sys {n opc : Nat} (hsys : 0xF0 ≤ opc ∧ opc ≤ 0xF2) (hpos : 0 < n) (hlt : n < 2 ^ 24) :
    IllegalWord (BitVec.ofNat 32 (n * 256 + opc)) := by
  rw [illegalWord_iff_fields, rsvField_eq, opcField_eq, instField_eq, BitVec.toNat_ofNat, IllegalFields]
  omega

/-- R83, R231: such a word raises E_ILLEGAL and has no other effect. -/
theorem performCommand_sys_illegal {n opc : Nat} (hsys : 0xF0 ≤ opc ∧ opc ≤ 0xF2) (hpos : 0 < n) (hlt : n < 2 ^ 24)
    (s : State) : performCommand (BitVec.ofNat 32 (n * 256 + opc)) s = .next (s.faulted .eIllegal) := by
  obtain ⟨hillegal, -⟩ := illegalWordsRaise (BitVec.ofNat 32 (n * 256 + opc)) s
  exact hillegal (illegalWord_of_sys hsys hpos hlt)

/-! ### What the SYS commands do -/

section Meanings

variable (s : State)

theorem exec_sysNop : exec .sysNop s = .next (s.completed 0 0) := rfl

theorem exec_sysClrst : exec .sysClrst s = .next (State.completed { s with sticky := 0 } 0 0) := rfl

theorem exec_sysReset : exec .sysReset s = .next s.resetBlock := rfl

theorem performOp_hardwareReset : performOp .hardwareReset s = .next s.resetBlock := rfl

end Meanings

/-- R23: STATUS reads 0 when no fault is recorded and the last command completed. -/
theorem statusWord_eq_zero_iff {P : Params} (s : State P) : s.statusWord = 0 ↔ s.sticky = 0 ∧ s.code.toNat = 0 := by
  rw [← BitVec.toNat_inj, ← BitVec.toNat_inj, toNat_statusWord]
  simp

/-- R261, R263: a reset leaves no copy of any unit configured. -/
theorem resetBlock_copyValid {P : Params} (s : State P) (u : CommandUnit) (n : Nat) :
    s.resetBlock.copyValid u n = false := by
  cases u with
  | tmr => simp [State.copyValid, State.resetWith, Tmr.atReset]
  | iir => simp [State.copyValid, State.resetWith, Iir.atReset]
  | mav => simp [State.copyValid, State.resetWith, Mav.atReset]
  | rmp => simp [State.copyValid, State.resetWith, Rmp.atReset]
  | fx | sys => rfl

/-- Settles O12: both resets are `resetBlock`, after which no copy passes the second check of R83. -/
theorem sysResetIsHardwareReset : Obligations.SysResetIsHardwareReset := by
  refine ⟨rfl, performCommand_sys_illegal (n := 1) (opc := 0xF2) (by decide) (by decide) (by decide),
    fun s => (exec_sysReset s).trans (performOp_hardwareReset s).symm, ?_⟩
  intro s t i count hreset hcount hinst hneeds
  cases (exec_sysReset s).symm.trans hreset
  obtain ⟨-, hunconf⟩ := decodeChecksInOrder i s.resetBlock count hcount
  exact hunconf hinst hneeds (resetBlock_copyValid s i.unit i.inst)

/-- Settles O55: the two meanings, and the words of the two opcodes with a bit set above OPC. -/
theorem sysNopAndClrst : Obligations.SysNopAndClrst := by
  refine ⟨rfl, rfl, exec_sysNop, fun s => ⟨_, exec_sysClrst s, rfl, ?_⟩, fun s n hpos hlt => ⟨?_, ?_⟩⟩
  · exact (statusWord_eq_zero_iff _).mpr ⟨rfl, rfl⟩
  · exact performCommand_sys_illegal (by decide) hpos hlt s
  · exact performCommand_sys_illegal (by decide) hpos hlt s

end Sys2Proof.Machine

/-! PROOF of the statement on the fault codes (spec 60_exceptions.md). Every command but SYS.CLRST and SYS.RESET ends by
`State.complete` or by `State.raise` of a fault code; `CompletedOrRaised` says what the two have in common, and each
shared operation answers it. -/

namespace Sys2Proof.Machine

open Sys2Proof.Config

variable {P : Params}

/-- R231: from `s`, a command completed with STICKY kept, or it raised a fault code and changed nothing else. -/
def CompletedOrRaised (s t : State P) : Prop :=
  (t.code = .ok ∧ t.sticky = s.sticky) ∨ ∃ c : Code, c ≠ .ok ∧ t = s.faulted c

section SharedOperations

variable (s : State P)

theorem complete_completedOrRaised (r0 r1 : Word) : CompletedOrRaised s (s.complete r0 r1) := .inl ⟨rfl, rfl⟩

theorem raise_completedOrRaised {c : Code} (h : c ≠ .ok) : CompletedOrRaised s (s.raise c) :=
  .inr ⟨c, h, raise_eq_faulted s h⟩

theorem fxCommand_completedOrRaised (r : Option Word) {c : Code} (h : c ≠ .ok) :
    CompletedOrRaised s (s.fxCommand r c) := by
  cases r with
  | none => exact raise_completedOrRaised s h
  | some v => exact complete_completedOrRaised s v 0

/-- R14: a command of a unit, when putting a copy back keeps STICKY. -/
theorem commit_completedOrRaised {α : Type} {N n : Nat} {copies : Vector α N} {ready : α → Bool}
    {body : α → Verdict α} {put : Vector α N → State P} (hput : ∀ v, (put v).sticky = s.sticky)
    (hb : RaisesFaults body) : CompletedOrRaised s (s.commit put (selectCopy copies ready n body)) := by
  cases e : selectCopy copies ready n body with
  | raise c => exact raise_completedOrRaised s (selectCopy_raisesFaults hb e)
  | done new r0 r1 => exact .inl ⟨rfl, hput new⟩

end SharedOperations

/-- R231: every command that leaves the STICKY field to `raise` and `complete`, on a block of any size. -/
theorem execFor_completedOrRaised {i : Instr} (s : State P) (hclrst : i ≠ .sysClrst) (hreset : i ≠ .sysReset) :
    ∃ t, execFor i s = .next t ∧ CompletedOrRaised s t := by
  cases hu : i.unit
  case fx =>
    obtain ⟨r, c, hc, e⟩ := execFor_fx_shape i s hu
    exact ⟨_, e s (sameArgs_refl s), fxCommand_completedOrRaised s r hc⟩
  case tmr =>
    obtain ⟨ready, body, hb, e⟩ := execFor_tmr_shape i s hu
    exact ⟨_, e s (sameArgs_refl s), commit_completedOrRaised s (fun _ => rfl) hb⟩
  case iir =>
    obtain ⟨ready, body, hb, e⟩ := execFor_iir_shape i s hu
    exact ⟨_, e s (sameArgs_refl s), commit_completedOrRaised s (fun _ => rfl) hb⟩
  case mav =>
    obtain ⟨ready, body, hb, e⟩ := execFor_mav_shape i s hu
    exact ⟨_, e s (sameArgs_refl s), commit_completedOrRaised s (fun _ => rfl) hb⟩
  case rmp =>
    obtain ⟨ready, body, hb, e⟩ := execFor_rmp_shape i s hu
    exact ⟨_, e s (sameArgs_refl s), commit_completedOrRaised s (fun _ => rfl) hb⟩
  case sys =>
    cases i <;> cases hu
    case sysNop => exact ⟨_, rfl, complete_completedOrRaised s 0 0⟩
    case sysClrst => exact absurd rfl hclrst
    case sysReset => exact absurd rfl hreset

/-- Settles O15: SYS.CLRST and SYS.RESET leave CODE 0; every other command completes or raises. -/
theorem completeOrRaiseOnly : Obligations.CompleteOrRaiseOnly := by
  intro i s
  by_cases hclrst : i = .sysClrst
  · exact ⟨_, hclrst ▸ exec_sysClrst s, .inl ⟨rfl, fun h _ => absurd hclrst h⟩⟩
  by_cases hreset : i = .sysReset
  · exact ⟨_, hreset ▸ exec_sysReset s, .inl ⟨rfl, fun _ h => absurd hreset h⟩⟩
  rw [exec_eq_execFor]
  obtain ⟨t, ht, hdone⟩ := execFor_completedOrRaised s hclrst hreset
  exact ⟨t, ht, hdone.imp_left fun ⟨hcode, hsticky⟩ => ⟨hcode, fun _ _ => hsticky⟩⟩

end Sys2Proof.Machine

/-! PROOFS of the statements on reset (spec 70_reset_and_hazards.md). Both reset events make the state `resetBlock`
(`performOp_hardwareReset`, `exec_sysReset`), and the power-up state is one too (`reset_eq_resetBlock`); so R261 is proved
once, of `resetBlock`, from what each copy is after it. -/

namespace Sys2Proof.Machine

open Sys2Proof.Config

section ResetCopies

variable {P : Params} (s : State P) (n : Nat)

theorem resetBlock_getElem_tmr (h : n < P.nTmr) : s.resetBlock.tmr[n] = Tmr.atReset :=
  Vector.getElem_replicate h

theorem resetBlock_getElem_iir (h : n < P.nIir) : s.resetBlock.iir[n] = Iir.atReset :=
  Vector.getElem_replicate h

theorem resetBlock_getElem_mav (h : n < P.nMav) : s.resetBlock.mav[n] = Mav.atReset :=
  Vector.getElem_replicate h

theorem resetBlock_getElem_rmp (h : n < P.nRmp) : s.resetBlock.rmp[n] = Rmp.atReset :=
  Vector.getElem_replicate h

end ResetCopies

/-- R260: the state right after power-up is what a reset makes of itself, the host's lists being empty in it. -/
theorem reset_eq_resetBlock : State.reset = State.reset.resetBlock := rfl

/-- R24 to R26, R261: the three constants read the same in every state, and so after reset. -/
theorem readReg_constants (s : State) :
    s.readReg .id = 0x46584D43 ∧ s.readReg .param0 = 0x04040404 ∧ s.readReg .param1 = 0x00000040 :=
  ⟨rfl, rfl, rfl⟩

/-- R261, for a reset from any state. -/
theorem resetBlock_isReset (s : State) : s.resetBlock.IsReset where
  args := ⟨rfl, rfl, rfl, rfl⟩
  results := ⟨rfl, rfl⟩
  status := (statusWord_eq_zero_iff _).mpr ⟨rfl, rfl⟩
  hardwired := readReg_constants _
  tmr n h := by
    rw [resetBlock_getElem_tmr s n h]
    exact ⟨rfl, rfl, rfl, rfl, rfl, rfl⟩
  iir n h := by
    rw [resetBlock_getElem_iir s n h]
    exact ⟨rfl, rfl, rfl, rfl, rfl⟩
  mav n h := by
    rw [resetBlock_getElem_mav s n h]
    exact ⟨rfl, rfl, rfl, rfl, rfl, fun k _ => bufRead_nil k⟩
  rmp n h := by
    rw [resetBlock_getElem_rmp s n h]
    exact ⟨rfl, rfl, rfl, rfl, rfl, rfl⟩

/-- R260, R245: the step that takes the hardware reset from the pending list resets the block. -/
theorem step_hardwareReset {s : State} {later : List HostOp} (h : s.pending = .hardwareReset :: later) :
    step s = .next (State.resetBlock { s with pending := later }) :=
  (step_op h).trans (performOp_hardwareReset _)

/-- Settles O11: each of the three states is `resetBlock` of some state. -/
theorem resetValues : Obligations.ResetValues := by
  refine ⟨?powerUp, fun s later h => ?hardwareReset, fun s => ?sysReset⟩
  case powerUp =>
    rw [reset_eq_resetBlock]
    exact resetBlock_isReset _
  case hardwareReset => exact ⟨_, step_hardwareReset h, resetBlock_isReset _, rfl, rfl⟩
  case sysReset => exact ⟨_, exec_sysReset s, resetBlock_isReset s, rfl, rfl⟩

/-- Settles O13: this block is one of the blocks of `resetWith_inv`. -/
theorem resetMeetsInvariant : Obligations.ResetMeetsInvariant := resetWith_inv block

end Sys2Proof.Machine
